-- ==== Sys2Proof/Word.lean ====
section
/-! DEFINITION. The words of the FVL core: bytes, and the 12-bit words of its three word ports
(30_encoding.md R90, R91, R96, R107). -/

namespace Sys2Proof

/-- A byte: 8 bits, bit 0 the least significant (00_scope.md R12). -/
abbrev Byte := BitVec 8

/-- An event word, format EV (30_encoding.md R91). -/
abbrev EventWord := BitVec 12

/-- A word on an output port: a command word, format CW (30_encoding.md R96), or an error report
word, format ER (R107). -/
abbrev OutWord := BitVec 12

end Sys2Proof
end

