-- ==== Sys2Proof/Config.lean ====
section
/-! DEFINITION. What an implementation of the FVL core fixes: its parameters (00_scope.md R9), the
constants the spec gives a value, and the values the spec leaves unspecified, as constants without
a body. -/

namespace Sys2Proof

/-- The OPEN parameters of 00_scope.md R9 ("is an argument of the model"). DESIGN CHOICE (log 1):
they ride in `State.cfg`, which no step changes, so a claim about every state holds for every value
of them. Their constraints are `Params.wellFormed`. -/
structure Params where
  /-- `MAXPAY`, the largest frame length the Dispatcher may send. -/
  maxPay : Nat
  /-- `TXCAP`, the capacity of the Serial Transmit Buffer. -/
  txCap : Nat
  /-- `RFRXCAP`, the capacity of the Radio Receive Frame buffer. -/
  rfRxCap : Nat
  /-- `NUMCAP`, the capacity of the formatter's scratch buffer. -/
  numCap : Nat
  /-- `FLUSH_MS`, the flush timeout in milliseconds. -/
  flushMs : Nat
  /-- `TMR_MAX`, the Timer Facility's cap on `arm`. -/
  tmrMax : Nat
  /-- `POLL_CAP`, the most status polls in one wait for radio Idle. -/
  pollCap : Nat
  /-- `REG_RXCOUNT`, the radio register that returns the receive FIFO byte count. -/
  regRxCount : Byte
  deriving DecidableEq, Repr

/-- The test configuration T0 (00_scope.md R11). -/
def Params.t0 : Params :=
  { maxPay := 16, txCap := 64, rfRxCap := 19, numCap := 8, flushMs := 5, tmrMax := 255,
    pollCap := 4, regRxCount := 0x3B#8 }

/-- `INTW`, the width of the formatter's signed argument (00_scope.md R9, 45_numeric_formatter.md
R236). -/
abbrev Config.intw : Nat := 16

/-- `DELIM`, the newline (00_scope.md R9, R12). PRESUMED by the spec for its number (log 15). -/
def Config.delim : Byte := 0x0A#8

/-- `SEP`, one space (00_scope.md R9). -/
def Config.sep : Byte := 0x20#8

/-- `PLACEHOLDER`, `?` (00_scope.md R9, 43_packet_validator.md R204). -/
def Config.placeholder : Byte := 0x3F#8

/-- The formatter's terminator (45_numeric_formatter.md R235). PRESUMED by the spec (log 15). -/
def Config.terminator : Byte := 0x00#8

/-- The response bytes the environment gives when no chosen one is left (30_encoding.md R106:
"Responses are inputs chosen by the environment"). A free value: log 3. -/
opaque Config.freeResponse : Nat → Byte

/-- The bytes of the formatter's buffer that 45_numeric_formatter.md R234 and R235 call
unspecified, by value formatted, capacity and index. A free value: log 11. -/
opaque Config.scratchByte : BitVec Config.intw → Nat → Nat → Byte

end Sys2Proof
end

