-- ==== Sys2Proof/Syntax.lean ====
section
/-! DEFINITION. The operations of the FVL core, one constructor per row of the opcode table
(00_scope.md R6, 30_encoding.md R92), and the words it emits: the commands (30_encoding.md R97,
R98) and the error kinds (60_exceptions.md R252). -/

namespace Sys2Proof

/-- The event operations (30_encoding.md R92). The sub-operations `DISPATCH`, `VALIDATE` and
`FMTDEC` have no encoding (R113) and are not instructions. -/
inductive Instr where
  /-- `STEP`: one phase of the main loop (42_link_state_machine.md R163). -/
  | step
  /-- `RXB b`: a serial byte was received (40_serial_framer.md R121). -/
  | rxb (b : Byte)
  /-- `TMR`: the flush timer fired (40_serial_framer.md R126). -/
  | tmr
  /-- `TXD`: a serial byte was transmitted (44_serial_drainer.md R221). -/
  | txd
  /-- `PKT`: a radio packet boundary (42_link_state_machine.md R172). -/
  | pkt
  deriving DecidableEq, Repr

/-- The strobe codes (30_encoding.md R98). -/
inductive Strobe where
  /-- Query the status only. -/
  | snop
  /-- Leave receive mode and go to Idle. -/
  | sidle
  /-- Enter receive mode. -/
  | srx
  /-- Transmit the frame in the transmit FIFO. -/
  | stx
  deriving DecidableEq, Repr

/-- The commands to the collaborators (30_encoding.md R97). -/
inductive Command where
  /-- `RSTROBE s`. -/
  | rstrobe (s : Strobe)
  /-- `RREAD a`: read radio register `a`. -/
  | rread (a : Byte)
  /-- `RWFIFO n` with its `n` data bytes (R100). -/
  | rwfifo (data : List Byte)
  /-- `RRFIFO n`: remove `n` bytes from the receive FIFO (R101). -/
  | rrfifo (n : Byte)
  /-- `RREINIT`: reinitialize the radio (R102). -/
  | rreinit
  /-- `SSEND b`: hand a byte to the Serial Driver (R103). -/
  | ssend (b : Byte)
  /-- `SRXIE e`: enable or disable delivery of `RXB` events (R103). -/
  | srxie (e : Bool)
  /-- `TARM t`: arm the Flush Timer (R105). -/
  | tarm (t : Byte)
  /-- `TDISARM`: cancel the Flush Timer (R105). -/
  | tdisarm
  deriving DecidableEq, Repr

/-- The error kinds (60_exceptions.md R252). -/
inductive ErrorKind where
  | receiveBufferOverflow
  | transmitBufferOverflow
  | malformedFrame
  | radioStateMismatch
  | shortPacket
  | crcFailure
  | oversizePacket
  | radioIdleTimeout
  deriving DecidableEq, Repr

/-- The two execution contexts (60_exceptions.md R263). -/
inductive Context where
  | handler
  | mainLoop
  deriving DecidableEq, Repr

/-- The context an operation runs in (60_exceptions.md R263). -/
def Instr.context : Instr → Context
  | .step => .mainLoop
  | .rxb _ => .handler
  | .tmr => .handler
  | .txd => .handler
  | .pkt => .handler

end Sys2Proof
end

