-- ==== Sys2Proof/WellFormed.lean ====
section
/-! DEFINITION. Well-formedness. A term of `Instr` needs no check of its own: its one operand is a
byte and "All 256 values are legal" (30_encoding.md R95). What can be ill formed is an event word
(R94), a command whose data do not fit its count byte (R100), and the parameters (00_scope.md R9,
R10). -/

namespace Sys2Proof

/-- A legal event word: `STEP`, `TMR`, `TXD` and `PKT` have no data, `RXB` any (30_encoding.md
R92, R94). -/
def eventWordLegal (w : EventWord) : Bool :=
  w == 0x000#12 || (w &&& 0xF00#12) == 0x100#12 || w == 0x200#12 || w == 0x300#12 || w == 0x400#12

/-- A command whose count fits its argument byte: only `RWFIFO` carries a list (30_encoding.md
R96, R100). -/
def Command.wellFormed : Command → Bool
  | .rwfifo data => decide (data.length ≤ 255)
  | _ => true

/-- `2 <= MAXPAY <= 252` (00_scope.md R9, R10). -/
def Params.maxPayOk (p : Params) : Bool := decide (2 ≤ p.maxPay) && decide (p.maxPay ≤ 252)

/-- `TXCAP >= 1` (00_scope.md R9). -/
def Params.txCapOk (p : Params) : Bool := decide (1 ≤ p.txCap)

/-- `5 <= RFRXCAP <= 255` (00_scope.md R9). -/
def Params.rfRxCapOk (p : Params) : Bool := decide (5 ≤ p.rfRxCap) && decide (p.rfRxCap ≤ 255)

/-- `NUMCAP >= 1` (00_scope.md R9). -/
def Params.numCapOk (p : Params) : Bool := decide (1 ≤ p.numCap)

/-- `FLUSH_MS >= 1` (00_scope.md R9). -/
def Params.flushMsOk (p : Params) : Bool := decide (1 ≤ p.flushMs)

/-- `1 <= TMR_MAX <= 255` (00_scope.md R9). -/
def Params.tmrMaxOk (p : Params) : Bool := decide (1 ≤ p.tmrMax) && decide (p.tmrMax ≤ 255)

/-- `POLL_CAP >= 1` (00_scope.md R9). -/
def Params.pollCapOk (p : Params) : Bool := decide (1 ≤ p.pollCap)

/-- The parameters meet every constraint of 00_scope.md R9 and R10. Outside them "the rules are
not claimed to hold" (93_implementation_defined.md U16), and `step` refuses (log 7). -/
def Params.wellFormed (p : Params) : Bool :=
  p.maxPayOk && p.txCapOk && p.rfRxCapOk && p.numCapOk && p.flushMsOk && p.tmrMaxOk && p.pollCapOk

end Sys2Proof
end

