-- ==== Sys2Proof/Decode.lean ====
section
/-! DEFINITION. The event word (30_encoding.md R91, R92, R94, R95): its fields, the decoder, total
on every word and refusing by name, the encoder, and the opcode table as rows of match and mask. -/

namespace Sys2Proof

/-- Why a word is no instruction: the two shapes of a reserved event word (30_encoding.md R94). -/
inductive DecodeError where
  /-- `OP` in `0x5 .. 0xF`. -/
  | reservedOp (op : BitVec 4)
  /-- `OP` in 0, 2, 3, 4 with `DATA` not zero. -/
  | reservedData (op : BitVec 4) (data : Byte)
  deriving DecidableEq, Repr

/-- `OP = EV[11:8]` (30_encoding.md R91). -/
def evOp (w : EventWord) : BitVec 4 := w.extractLsb' 8 4

/-- `DATA = EV[7:0]` (30_encoding.md R91). -/
def evData (w : EventWord) : Byte := w.extractLsb' 0 8

/-- An operation whose `DATA` must be `0x00` (30_encoding.md R92). -/
def decodeBare (w : EventWord) (i : Instr) : Except DecodeError Instr :=
  if evData w = 0x00#8 then .ok i else .error (.reservedData (evOp w) (evData w))

/-- The decoder of event words (30_encoding.md R92, R94). -/
def decode (w : EventWord) : Except DecodeError Instr :=
  if evOp w = 0x0#4 then decodeBare w .step
  else if evOp w = 0x1#4 then .ok (.rxb (evData w))
  else if evOp w = 0x2#4 then decodeBare w .tmr
  else if evOp w = 0x3#4 then decodeBare w .txd
  else if evOp w = 0x4#4 then decodeBare w .pkt
  else .error (.reservedOp (evOp w))

/-- The encoder (30_encoding.md R92). -/
def encode : Instr → EventWord
  | .step => 0x000#12
  | .rxb b => 0x1#4 ++ b
  | .tmr => 0x200#12
  | .txd => 0x300#12
  | .pkt => 0x400#12

/-- One row of the opcode table. -/
structure EventRow where
  mnemonic : String
  pattern : EventWord
  mask : EventWord
  deriving DecidableEq, Repr

/-- "a word `w` selects the row when `(w & mask) == match`" (30_encoding.md R92). -/
def EventRow.selects (r : EventRow) (w : EventWord) : Bool := (w &&& r.mask) == r.pattern

/-- The rows of 30_encoding.md R92 (spec/opcode_table.json), in the table's order. -/
def eventRows : List EventRow :=
  [⟨"STEP", 0x000#12, 0xFFF#12⟩, ⟨"RXB", 0x100#12, 0xF00#12⟩, ⟨"TMR", 0x200#12, 0xFFF#12⟩,
   ⟨"TXD", 0x300#12, 0xFFF#12⟩, ⟨"PKT", 0x400#12, 0xFFF#12⟩]

/-- The row an instruction is encoded by. -/
def Instr.row : Instr → EventRow
  | .step => ⟨"STEP", 0x000#12, 0xFFF#12⟩
  | .rxb _ => ⟨"RXB", 0x100#12, 0xF00#12⟩
  | .tmr => ⟨"TMR", 0x200#12, 0xFFF#12⟩
  | .txd => ⟨"TXD", 0x300#12, 0xFFF#12⟩
  | .pkt => ⟨"PKT", 0x400#12, 0xFFF#12⟩

/-- The instruction the decoder reads from the `nbits` low bits of `w`. The event port is 12 bits
wide, so a number that needs more is no event word. -/
def decodeTableWord (nbits w : Nat) : Option Instr :=
  if w % 2 ^ nbits < 4096 then (decode (BitVec.ofNat 12 (w % 2 ^ nbits))).toOption else none

end Sys2Proof
end

