-- ==== Sys2Proof/Machine/State.lean ====
section
/-! DEFINITION. The state of the FVL core as plain data (10_state.md R30 to R46), the reasons a step
can stop, and the state after reset (10_state.md R56, 70_reset_and_hazards.md R290). -/

namespace Sys2Proof.Machine

/-- The Link State (10_state.md R40). Three values only: "the value 3 is never written" and
93_implementation_defined.md U7 asks for a three-valued type (log 17). -/
inductive LinkState where
  | idle
  | listening
  | transmitting
  deriving DecidableEq, Repr

/-- The phase of the main-loop sequencer (10_state.md R44). -/
inductive Phase where
  | top
  | poll
  | wait
  | post
  deriving DecidableEq, Repr

/-- The four byte buffers, each its own address space (20_memory.md R70). -/
inductive Buf where
  /-- `RXBUF`, the Serial Receive Buffer. -/
  | rxbuf
  /-- `TXBUF`, the Serial Transmit Buffer. -/
  | txbuf
  /-- `RFTX`, the Radio Transmit Frame. -/
  | rftx
  /-- `RFRX`, the Radio Receive Frame. -/
  | rfrx
  deriving DecidableEq, Repr

/-- What comes in from outside between two operations: an event word on the event port, or the
reset input (30_encoding.md R90, 70_reset_and_hazards.md R290). -/
inductive Input where
  | event (w : EventWord)
  | reset
  deriving DecidableEq, Repr

/-- One word on an output port (30_encoding.md R90): a command word with its byte lane (R96), or an
error report word (R107). -/
inductive PortWord where
  | command (w : OutWord) (lane : List Byte)
  | report (w : OutWord)
  deriving DecidableEq, Repr

/-- Why the machine stops with a fault. Neither is a fault of the FVL core, which has none
(60_exceptions.md R250); both are safe, and no state that meets `State.Inv` reaches them. -/
inductive Fault where
  /-- An access outside a buffer, raised by `memRead` and `memWrite`: "An index outside
  `0 .. capacity-1` never occurs" (00_scope.md R15). Safe (log 6). -/
  | indexOutOfRange (b : Buf) (i : Nat)
  /-- A read of a byte nothing has written, raised by `memRead`: "no rule reads a buffer byte that
  no operation has written since reset" (10_state.md R56). Safe (log 5). -/
  | unwrittenByte (b : Buf) (i : Nat)
  deriving DecidableEq, Repr

/-- Why the machine refuses. -/
inductive Refusal where
  /-- An instruction without a meaning, raised by `exec`. Safe. No arm raises it. -/
  | notModelled (mnemonic : String)
  /-- Parameters outside 00_scope.md R9 and R10, raised by `step`: treatment `refuse` of
  93_implementation_defined.md U16. Safe (log 7). -/
  | parametersOutOfRange
  deriving DecidableEq, Repr

/-- The contents of one buffer: index and byte, for the bytes written so far. Canonical form
(`Memory.wf`): indices strictly rising. An unlisted index has no value (log 5). -/
abbrev Memory := List Host.Cell

/-- The state. The registers and buffers are those of 10_state.md R30; the last five fields are the
model's own (log 1 to log 4). -/
structure State where
  /-- `rx_len` (10_state.md R31). -/
  rxLen : Nat
  /-- `tx_len` (R32). -/
  txLen : Nat
  /-- `tx_rd` (R33). -/
  txRd : Nat
  /-- `rfrx_len` (R34). -/
  rfrxLen : Nat
  /-- `pend_cnt` (R36); 0 is "none". -/
  pendCnt : Nat
  /-- `pend_to` (R37). -/
  pendTo : Bool
  /-- `tmr_armed` (R38). -/
  tmrArmed : Bool
  /-- `wake` (R39). -/
  wake : Bool
  /-- `link_state` (R40). -/
  linkState : LinkState
  /-- `link_err` (R41). -/
  linkErr : Bool
  /-- `tx_active` (R42). -/
  txActive : Bool
  /-- `ind` (R43), the value on the indicator wire (30_encoding.md R108). -/
  ind : Bool
  /-- `seq` (R44). -/
  seq : Phase
  /-- `poll_k` (R45). -/
  pollK : Nat
  /-- `RXBUF` (R46, 20_memory.md R71). -/
  rxbuf : Memory
  /-- `TXBUF` (R46, 20_memory.md R72). -/
  txbuf : Memory
  /-- `RFTX` (R46, 20_memory.md R73). -/
  rftx : Memory
  /-- `RFRX` (R46, 20_memory.md R74). -/
  rfrx : Memory
  /-- The parameters, which no step changes. The model's own (log 1). -/
  cfg : Params
  /-- What the environment will deliver, in the order it is taken. The model's own (log 2). -/
  inputs : List Input
  /-- The response bytes the environment has chosen (30_encoding.md R106). The model's own (log 3). -/
  responses : List Byte
  /-- The index of the next free response byte. The model's own (log 3). -/
  freeIdx : Nat
  /-- The words emitted so far, oldest first. The model's own (log 4). -/
  outputs : List PortWord
  deriving DecidableEq, Repr

/-- The state right after reset with parameters `p`: the table of 10_state.md R56, no buffer byte
written, nothing yet delivered or emitted. -/
def State.resetWith (p : Params) : State :=
  { rxLen := 0, txLen := 0, txRd := 0, rfrxLen := 0, pendCnt := 0, pendTo := false,
    tmrArmed := false, wake := false, linkState := .idle, linkErr := false, txActive := false,
    ind := false, seq := .top, pollK := 0, rxbuf := [], txbuf := [], rftx := [], rfrx := [],
    cfg := p, inputs := [], responses := [], freeIdx := 0, outputs := [] }

/-- The state right after reset, with the test configuration T0 (00_scope.md R11; DESIGN CHOICE,
log 1). -/
def State.reset : State := State.resetWith Params.t0

end Sys2Proof.Machine
end

