-- ==== Sys2Proof/Machine/Operands.lean ====
section
/-! DEFINITION. What follows from the parameters; the fields of the words and bytes the operations
take apart, and the words they put together: the status byte (30_encoding.md R104), the codes of the
enumerated registers (10_state.md R40, R44), the command words (30_encoding.md R96 to R105) and the
error report words (R107). -/

namespace Sys2Proof

/-- `C = 3 * MAXPAY`, the capacity of the Serial Receive Buffer (00_scope.md R9). -/
def Params.c (p : Params) : Nat := 3 * p.maxPay

/-- `RFTXCAP = MAXPAY + 1`, the capacity of the Radio Transmit Frame buffer (00_scope.md R9). -/
def Params.rfTxCap (p : Params) : Nat := p.maxPay + 1

/-- The argument of every `TARM`: `min(FLUSH_MS, TMR_MAX)` (30_encoding.md R105). -/
def Params.flushDelay (p : Params) : Nat := min p.flushMs p.tmrMax

end Sys2Proof

namespace Sys2Proof.Machine

/-- What the radio's status says (30_encoding.md R104). -/
inductive RadioState where
  | idle
  | listening
  | transmitting
  | transmitUnderflow
  | receiving
  | receiveOverflow
  | reserved
  deriving DecidableEq, Repr

/-- `STATE = ST[6:4]` (30_encoding.md R104). -/
def statusState (st : Byte) : BitVec 3 := st.extractLsb' 4 3

/-- `FIFO = ST[3:0]`, which the block ignores (30_encoding.md R104). -/
def statusFifo (st : Byte) : BitVec 4 := st.extractLsb' 0 4

/-- The meaning of a status byte's `STATE` (30_encoding.md R104). -/
def radioState (st : Byte) : RadioState :=
  match (statusState st).toNat with
  | 0 => .idle
  | 1 => .listening
  | 2 => .transmitting
  | 3 => .transmitUnderflow
  | 4 => .receiving
  | 5 => .receiveOverflow
  | _ => .reserved

/-- The code of a link state (10_state.md R40). -/
def linkStateCode : LinkState → BitVec 2
  | .idle => 0#2
  | .listening => 1#2
  | .transmitting => 2#2

/-- The code of a sequencer phase (10_state.md R44). -/
def phaseCode : Phase → BitVec 2
  | .top => 0#2
  | .poll => 1#2
  | .wait => 2#2
  | .post => 3#2

/-- The count a `RREAD` returns: "the whole returned byte as an unsigned count" (30_encoding.md
R99). -/
def countOperand (b : Byte) : Nat := b.toNat

/-- The formatter's operand for a telemetry byte: `zext_INTW(byte)` (43_packet_validator.md R203). -/
def telemetryOperand (b : Byte) : BitVec Config.intw := b.setWidth Config.intw

/-- The code of a strobe (30_encoding.md R98). -/
def strobeCode : Strobe → Byte
  | .snop => 0x00#8
  | .sidle => 0x01#8
  | .srx => 0x02#8
  | .stx => 0x03#8

/-- `CC`, the command code (30_encoding.md R97). -/
def commandCode : Command → BitVec 4
  | .rstrobe _ => 0x1#4
  | .rread _ => 0x2#4
  | .rwfifo _ => 0x3#4
  | .rrfifo _ => 0x4#4
  | .rreinit => 0x5#4
  | .ssend _ => 0x6#4
  | .srxie _ => 0x7#4
  | .tarm _ => 0x8#4
  | .tdisarm => 0x9#4

/-- `ARG`, the command argument (30_encoding.md R97). -/
def commandArg : Command → Byte
  | .rstrobe s => strobeCode s
  | .rread a => a
  | .rwfifo data => BitVec.ofNat 8 data.length
  | .rrfifo n => n
  | .rreinit => 0x00#8
  | .ssend b => b
  | .srxie e => if e then 0x01#8 else 0x00#8
  | .tarm t => t
  | .tdisarm => 0x00#8

/-- The command word: `CW[11:8] = CC`, `CW[7:0] = ARG` (30_encoding.md R96). -/
def commandWord (c : Command) : OutWord := commandCode c ++ commandArg c

/-- The byte lane: the data of a FIFO write (30_encoding.md R96). -/
def commandLane : Command → List Byte
  | .rwfifo data => data
  | _ => []

/-- The error codes (60_exceptions.md R252). -/
def errorCode : ErrorKind → BitVec 4
  | .receiveBufferOverflow => 0x1#4
  | .transmitBufferOverflow => 0x2#4
  | .malformedFrame => 0x3#4
  | .radioStateMismatch => 0x4#4
  | .shortPacket => 0x5#4
  | .crcFailure => 0x6#4
  | .oversizePacket => 0x7#4
  | .radioIdleTimeout => 0x8#4

/-- The error report word: `ER[11:8]` the code, `ER[7:0]` the information byte (30_encoding.md
R107). -/
def errorWord (e : ErrorKind) (info : Byte) : OutWord := errorCode e ++ info

/-- What the command port carries for a command. -/
def commandOut (c : Command) : PortWord := .command (commandWord c) (commandLane c)

/-- What the error report port carries for a report. -/
def errorOut (e : ErrorKind) (info : Byte) : PortWord := .report (errorWord e info)

end Sys2Proof.Machine
end

