-- ==== Sys2Proof/Machine/Flags.lean ====
section
/-! DEFINITION. Every condition the operations test and every one-bit value they compute. -/

namespace Sys2Proof.Machine

/-- Whether a status byte says Idle: "whether `STATE == 0`", the reserved codes being "not Idle"
and the other bits ignored (30_encoding.md R104). -/
def statusIdle (st : Byte) : Bool := statusState st == 0#3

/-- The CRC-valid bit: bit 7 of the quality byte (43_packet_validator.md R198). -/
def crcValid (q : Byte) : Bool := q.getLsbD 7

/-- "The marker is "set" exactly when `pend_cnt != 0`" (10_state.md R36). -/
def markerSet (s : State) : Bool := s.pendCnt != 0

/-- Whether there is room to append a byte to the receive buffer: the guard `rx_len < C`
(40_serial_framer.md R121). -/
def rxRoom (s : State) : Bool := decide (s.rxLen < s.cfg.c)

/-- The free space of the transmit buffer, which is linear (43_packet_validator.md R199). -/
def txFree (s : State) : Nat := s.cfg.txCap - s.txLen

/-- Whether another status poll is allowed: `poll_k + 1 < POLL_CAP` (42_link_state_machine.md
R166). -/
def pollAgain (s : State) : Bool := decide (s.pollK + 1 < s.cfg.pollCap)

/-- The scan window `W = min(pend_cnt, rx_len)` (41_outbound_dispatcher.md R145). -/
def scanWindow (s : State) : Nat := min s.pendCnt s.rxLen

end Sys2Proof.Machine
end

