-- ==== Sys2Proof/Machine/Ops.lean ====
section
/-! DEFINITION. The named operations over buffers, ports and registers that the meanings share. -/

namespace Sys2Proof.Machine

/-- The byte at an index of a buffer's contents, none where nothing has been written (log 5). -/
def Memory.read : Memory → Nat → Option Byte
  | [], _ => none
  | (i, v) :: m, a => if a = i then some v else Memory.read m a

/-- Write one byte, keeping the indices strictly rising. -/
def Memory.write : Memory → Nat → Byte → Memory
  | [], a, v => [(a, v)]
  | (i, w) :: m, a, v =>
    if a < i then (a, v) :: (i, w) :: m
    else if a = i then (a, v) :: m
    else (i, w) :: Memory.write m a v

/-- The canonical form: every index below every later one. -/
def Memory.wf : Memory → Bool
  | [] => true
  | (i, _) :: m => m.all (fun c => decide (i < c.1)) && Memory.wf m

/-- The contents of a buffer. -/
def State.mem (s : State) : Buf → Memory
  | .rxbuf => s.rxbuf
  | .txbuf => s.txbuf
  | .rftx => s.rftx
  | .rfrx => s.rfrx

/-- Replace the contents of a buffer. -/
def State.setMem (s : State) (b : Buf) (m : Memory) : State :=
  match b with
  | .rxbuf => { s with rxbuf := m }
  | .txbuf => { s with txbuf := m }
  | .rftx => { s with rftx := m }
  | .rfrx => { s with rfrx := m }

/-- The capacity of a buffer (10_state.md R46, 20_memory.md R70). -/
def Params.cap (p : Params) : Buf → Nat
  | .rxbuf => p.c
  | .txbuf => p.txCap
  | .rftx => p.rfTxCap
  | .rfrx => p.rfRxCap

/-- The model's read of one byte: none where nothing has been written since reset. -/
def State.byteAt (s : State) (b : Buf) (i : Nat) : Option Byte := Memory.read (s.mem b) i

/-- `MemRead(B[i], 1)` (00_scope.md R15). -/
def memRead (s : State) (b : Buf) (i : Nat) : Except Fault Byte :=
  if i < Params.cap s.cfg b then
    match s.byteAt b i with
    | some v => .ok v
    | none => .error (.unwrittenByte b i)
  else .error (.indexOutOfRange b i)

/-- `MemWrite(B[i], 1, v)` (00_scope.md R15). -/
def memWrite (s : State) (b : Buf) (i : Nat) (v : Byte) : Except Fault State :=
  if i < Params.cap s.cfg b then .ok (s.setMem b (Memory.write (s.mem b) i v))
  else .error (.indexOutOfRange b i)

/-- Read `n` bytes from index `i` upward. -/
def readBytes (s : State) (b : Buf) (i : Nat) : Nat → Except Fault (List Byte)
  | 0 => .ok []
  | n + 1 => do
    let v ← memRead s b i
    let vs ← readBytes s b (i + 1) n
    return v :: vs

/-- Write a list of bytes from index `i` upward. -/
def writeBytes (s : State) (b : Buf) (i : Nat) : List Byte → Except Fault State
  | [] => .ok s
  | v :: vs => do
    let s ← memWrite s b i v
    writeBytes s b (i + 1) vs

/-- Copy `n` bytes one by one in ascending order, from `src[si ..)` to `dst[di ..)`. -/
def copyBytes (s : State) (src : Buf) (si : Nat) (dst : Buf) (di : Nat) : Nat → Except Fault State
  | 0 => .ok s
  | n + 1 => do
    let v ← memRead s src si
    let s ← memWrite s dst di v
    copyBytes s src (si + 1) dst (di + 1) n

/-- `emit CMD(arg)`: one word on the command port (00_scope.md R17, 30_encoding.md R96). -/
def emit (s : State) (c : Command) : State := { s with outputs := s.outputs ++ [commandOut c] }

/-- `raise E(info)`: one word on the error report port "and has no other effect" (60_exceptions.md
R251; 00_scope.md R18). This is the block's only exception: nothing is saved, no control is
transferred, and the recovery is written out in the rule that raises it. -/
def raise (s : State) (e : ErrorKind) (info : Byte) : State :=
  { s with outputs := s.outputs ++ [errorOut e info] }

/-- The next byte on the response port: the environment's choice, or a free value when none is
left (30_encoding.md R106; log 3). -/
def nextResponse (s : State) : Byte :=
  match s.responses with
  | [] => Config.freeResponse s.freeIdx
  | b :: _ => b

/-- The state after one response byte has been taken. -/
def dropResponse (s : State) : State :=
  match s.responses with
  | [] => { s with freeIdx := s.freeIdx + 1 }
  | _ :: rest => { s with responses := rest }

/-- The next `n` bytes on the response port, in order. -/
def nextResponses (s : State) : Nat → List Byte
  | 0 => []
  | n + 1 => nextResponse s :: nextResponses (dropResponse s) n

/-- The state after `n` response bytes have been taken. -/
def dropResponses (s : State) : Nat → State
  | 0 => s
  | n + 1 => dropResponses (dropResponse s) n

/-- A fault ends the step; otherwise the operation's state is the next state. -/
def finish : Except Fault State → Host.Outcome State Fault Refusal
  | .ok s => .next s
  | .error f => .fault f

/-- The reset input: every register at its reset value, every buffer with nothing written, the
ports and the parameters as they were (70_reset_and_hazards.md R290, R291; log 8). -/
def applyReset (s : State) : State :=
  { State.resetWith s.cfg with
    inputs := s.inputs, responses := s.responses, freeIdx := s.freeIdx, outputs := s.outputs }

end Sys2Proof.Machine
end

