-- ==== Sys2Proof/Machine/Drainer.lean ====
section
/-! DEFINITION. The Serial Transmit Drainer: `TXD` (44_serial_drainer.md). -/

namespace Sys2Proof.Machine

/-- `TXD` of an active drainer, with the read cursor already advanced (44_serial_drainer.md R221). -/
def drainNext (s : State) : Except Fault State :=
  if s.txRd = s.txLen then return { s with txRd := 0, txLen := 0, txActive := false }
  else do
    let b ← memRead s .txbuf s.txRd
    return emit s (.ssend b)

/-- `TXD` (44_serial_drainer.md R221, R222). -/
def execTxd (s : State) : Host.Outcome State Fault Refusal :=
  if s.txActive then finish (drainNext { s with txRd := s.txRd + 1 }) else .next s

end Sys2Proof.Machine
end

