-- ==== Sys2Proof/Machine/Framer.lean ====
section
/-! DEFINITION. The Serial Receive Framer: `RXB` and `TMR` (40_serial_framer.md). -/

namespace Sys2Proof.Machine

/-- Step 1 of `RXB`: append, or drop when full (40_serial_framer.md R121). -/
def rxbAppend (s : State) (b : Byte) : Except Fault State :=
  if rxRoom s then do
    let s ← memWrite s .rxbuf s.rxLen b
    return { s with rxLen := s.rxLen + 1 }
  else return raise s .receiveBufferOverflow b

/-- Step 2 of `RXB`: clear any armed flush timer (40_serial_framer.md R121). -/
def rxbDisarm (s : State) : State :=
  if s.tmrArmed then { emit s .tdisarm with tmrArmed := false } else s

/-- Step 3 of `RXB`: mark a frame at the delimiter, otherwise arm the flush timer
(40_serial_framer.md R121). -/
def rxbMark (s : State) (b : Byte) : State :=
  if b = Config.delim then { s with pendCnt := s.rxLen, wake := true }
  else { emit s (.tarm (BitVec.ofNat 8 s.cfg.flushDelay)) with tmrArmed := true }

/-- `RXB b` (40_serial_framer.md R121). -/
def execRxb (b : Byte) (s : State) : Host.Outcome State Fault Refusal :=
  finish (do
    let s ← rxbAppend s b
    return rxbMark (rxbDisarm s) b)

/-- `TMR` (40_serial_framer.md R126). -/
def execTmr (s : State) : Host.Outcome State Fault Refusal :=
  if s.rxLen > 0 then
    .next { s with tmrArmed := false, pendCnt := s.rxLen, pendTo := true, wake := true }
  else .next { s with tmrArmed := false }

end Sys2Proof.Machine
end

