-- ==== Sys2Proof/Machine/Dispatcher.lean ====
section
/-! DEFINITION. The Outbound Dispatcher: the sub-operation `DISPATCH` (41_outbound_dispatcher.md). -/

namespace Sys2Proof.Machine

/-- The results of `DISPATCH` (41_outbound_dispatcher.md R141). -/
inductive DispatchResult where
  | dispatched (flen : Nat)
  | empty
  | invalid
  deriving DecidableEq, Repr

/-- The index of the first delimiter among the `w` bytes of `RXBUF` from index `i`
(41_outbound_dispatcher.md R145). -/
def findDelim (s : State) (i : Nat) : Nat → Except Fault (Option Nat)
  | 0 => .ok none
  | w + 1 => do
    let v ← memRead s .rxbuf i
    if v = Config.delim then return some i else findDelim s (i + 1) w

/-- Steps 1 and 2: the frame length, none where no delimiter is in the window, and the state with
the timeout indicator cleared (41_outbound_dispatcher.md R143, R144, R145). -/
def frameLength (s : State) : Except Fault (Option Nat × State) :=
  if s.pendTo then return (some s.rxLen, { s with pendTo := false })
  else do
    let found ← findDelim s 0 (scanWindow s)
    return (found.map (· + 1), s)

/-- Step 3, the Invalid path (41_outbound_dispatcher.md R146). -/
def dispatchInvalid (s : State) (info : Byte) : State :=
  emit (raise { s with pendCnt := 0, pendTo := false, rxLen := 0 } .malformedFrame info)
    (.srxie true)

/-- Step 4: build the Radio Transmit Frame (41_outbound_dispatcher.md R149). -/
def buildFrame (s : State) (flen : Nat) : Except Fault State := do
  let s ← memWrite s .rftx 0 (BitVec.ofNat 8 flen)
  copyBytes s .rxbuf 0 .rftx 1 flen

/-- Step 5: compact the receive buffer (41_outbound_dispatcher.md R147, R150). -/
def compactRx (s : State) (flen : Nat) : Except Fault State :=
  if s.rxLen > flen then do
    let s ← copyBytes s .rxbuf flen .rxbuf 0 (s.rxLen - flen)
    return { s with rxLen := s.rxLen - flen }
  else return { s with rxLen := 0, pendCnt := 0, pendTo := false }

/-- Leaving Listening before a transmission (41_outbound_dispatcher.md R152). -/
def stopListening (s : State) : State :=
  if s.linkState = .listening then { emit s (.rstrobe .sidle) with linkState := .idle } else s

/-- Step 6: hand the frame to the radio (41_outbound_dispatcher.md R152). -/
def handOff (s : State) (flen : Nat) : Except Fault State := do
  let s := stopListening s
  let frame ← readBytes s .rftx 0 (flen + 1)
  let s := emit (emit s (.rwfifo frame)) (.rstrobe .stx)
  return { s with linkState := .transmitting, ind := true }

/-- Steps 4 to 6, for a frame of legal length. -/
def sendFrame (s : State) (flen : Nat) : Except Fault State := do
  let s ← buildFrame s flen
  let s ← compactRx s flen
  handOff (emit s (.srxie true)) flen

/-- The information byte of the length guard: `min(flen, 255)` (41_outbound_dispatcher.md R146). -/
def guardInfo (flen : Nat) : Byte := BitVec.ofNat 8 (min flen 255)

/-- `DISPATCH` (41_outbound_dispatcher.md R143). -/
def dispatch (s : State) : Except Fault (DispatchResult × State) :=
  if markerSet s then do
    let (flen?, s) ← frameLength (emit s (.srxie false))
    match flen? with
    | none => return (.invalid, dispatchInvalid s 0x00#8)
    | some flen =>
      if flen = 0 then return (.invalid, dispatchInvalid s 0x00#8)
      else if flen > s.cfg.maxPay then return (.invalid, dispatchInvalid s (guardInfo flen))
      else do
        let s ← sendFrame s flen
        return (.dispatched flen, s)
  else return (.empty, s)

end Sys2Proof.Machine
end

