-- ==== Sys2Proof/Machine/Formatter.lean ====
section
/-! DEFINITION. The Numeric Formatter: the sub-operation `FMTDEC` (45_numeric_formatter.md). -/

namespace Sys2Proof.Machine

/-- The ASCII digit of a number below ten (45_numeric_formatter.md R232). -/
def decDigit (d : Nat) : Byte := BitVec.ofNat 8 (0x30 + d)

/-- The decimal digits of `m`, most significant first, with at most `fuel` of them. -/
def decDigits : Nat → Nat → List Byte
  | 0, _ => []
  | fuel + 1, m =>
    if m < 10 then [decDigit m] else decDigits fuel (m / 10) ++ [decDigit (m % 10)]

/-- The text of a number: a minus sign for a negative one, then the digits of its absolute value
(45_numeric_formatter.md R231, R232). -/
def decText (v : Int) : List Byte :=
  (if v < 0 then [0x2D#8] else []) ++ decDigits (v.natAbs + 1) v.natAbs

/-- What `FMTDEC` answers: the length, 0 for a failure, and the caller's buffer. -/
structure FmtResult where
  len : Nat
  buf : List Byte
  deriving DecidableEq, Repr

/-- The unspecified bytes of the caller's buffer from index `i` on: free values
(45_numeric_formatter.md R234, R235; log 11). -/
def scratch (value : BitVec Config.intw) (capacity i : Nat) : List Byte :=
  (List.range' i (capacity - i)).map (Config.scratchByte value capacity)

/-- `FMTDEC(value, capacity)` (45_numeric_formatter.md R231). -/
def fmtDec (value : BitVec Config.intw) (capacity : Nat) : FmtResult :=
  let text := decText value.toInt
  if capacity < text.length + 1 then { len := 0, buf := scratch value capacity 0 }
  else
    { len := text.length,
      buf := text ++ [Config.terminator] ++ scratch value capacity (text.length + 1) }

end Sys2Proof.Machine
end

