-- ==== Sys2Proof/Machine/Validator.lean ====
section
/-! DEFINITION. The packet validator: the sub-operation `VALIDATE` (43_packet_validator.md). -/

namespace Sys2Proof.Machine

/-- The results of `VALIDATE` (43_packet_validator.md R190, R207). -/
inductive ValidateResult where
  | forwarded (n : Nat)
  | rejected
  deriving DecidableEq, Repr

/-- `DEC(v)`: the formatter's text, or the placeholder when it fails (43_packet_validator.md
R204). -/
def telemetryNumber (p : Params) (b : Byte) : List Byte :=
  let r := fmtDec (telemetryOperand b) p.numCap
  if r.len = 0 then [Config.placeholder] else r.buf.take r.len

/-- The telemetry text `T` (43_packet_validator.md R202). -/
def telemetryText (p : Params) (strength quality : Byte) : List Byte :=
  telemetryNumber p strength ++ [Config.sep] ++ telemetryNumber p quality ++ [Config.delim]

/-- The exit of every rejecting path (43_packet_validator.md R191, R192). -/
def rejectPacket (s : State) : ValidateResult × State := (.rejected, { s with rfrxLen := 0 })

/-- Step 6: append the payload, bytes first, length after (43_packet_validator.md R199, R200). -/
def appendPayload (s : State) (fwd : Nat) : Except Fault State := do
  let s ← copyBytes s .rfrx 1 .txbuf s.txLen fwd
  return { s with txLen := s.txLen + fwd }

/-- Step 7: append the telemetry text, all or nothing (43_packet_validator.md R202, R205). -/
def appendTelemetry (s : State) (text : List Byte) : Except Fault State :=
  if text.length ≤ txFree s then do
    let s ← writeBytes s .txbuf s.txLen text
    return { s with txLen := s.txLen + text.length }
  else return raise s .transmitBufferOverflow (BitVec.ofNat 8 text.length)

/-- Step 8: kick the drainer if it is idle (43_packet_validator.md R206). -/
def kickDrainer (s : State) : Except Fault State :=
  if s.txActive then return s
  else do
    let b ← memRead s .txbuf s.txRd
    return { emit s (.ssend b) with txActive := true }

/-- Steps 6 to 8, for a frame of `n` bytes that passed every gate. -/
def forwardPacket (s : State) (n : Nat) : Except Fault (ValidateResult × State) := do
  let s ← appendPayload s (n - 3)
  let strength ← memRead s .rfrx (n - 2)
  let quality ← memRead s .rfrx (n - 1)
  let s ← appendTelemetry s (telemetryText s.cfg strength quality)
  let s ← kickDrainer s
  return (.forwarded (n - 3), { s with rfrxLen := 0 })

/-- Step 3: bulk-read `n` bytes into the Radio Receive Frame (43_packet_validator.md R198). -/
def readPacket (s : State) (n : Nat) : Except Fault State := do
  let s := emit s (.rrfifo (BitVec.ofNat 8 n))
  let s ← writeBytes (dropResponses s n) .rfrx 0 (nextResponses s n)
  return { s with rfrxLen := n }

/-- Gates 4 and 5, for a frame already read (43_packet_validator.md R198, R199). -/
def checkPacket (s : State) (n : Nat) : Except Fault (ValidateResult × State) := do
  let q ← memRead s .rfrx (n - 1)
  if crcValid q then
    if txFree s < n - 3 then
      return rejectPacket (raise s .transmitBufferOverflow (BitVec.ofNat 8 (n - 3)))
    else forwardPacket s n
  else return rejectPacket (raise s .crcFailure q)

/-- Gate 2, the oversize gate and what follows them, for a count byte `nb` (43_packet_validator.md
R195, R197). -/
def checkCount (s : State) (nb : Byte) : Except Fault (ValidateResult × State) :=
  if countOperand nb < 5 then
    return rejectPacket (raise { s with linkErr := true } .shortPacket nb)
  else if countOperand nb > s.cfg.rfRxCap then
    return rejectPacket (raise { s with linkErr := true } .oversizePacket nb)
  else do
    let s ← readPacket s (countOperand nb)
    checkPacket s (countOperand nb)

/-- `VALIDATE` (43_packet_validator.md R191). -/
def validate (s : State) : Except Fault (ValidateResult × State) :=
  let s := emit s (.rstrobe .snop)
  let st := nextResponse s
  let s := dropResponse s
  if statusIdle st then
    let s := emit s (.rread s.cfg.regRxCount)
    checkCount (dropResponse s) (nextResponse s)
  else return rejectPacket (raise { s with linkErr := true } .radioStateMismatch st)

end Sys2Proof.Machine
end

