-- ==== Sys2Proof/Machine/LinkMachine.lean ====
section
/-! DEFINITION. The radio link state machine and the main-loop sequencer: `STEP` and `PKT`
(42_link_state_machine.md). -/

namespace Sys2Proof.Machine

/-- The reinitialization `TOP` commands when the Link Error Flag is set (42_link_state_machine.md
R164). -/
def reinitIfError (s : State) : State :=
  if s.linkErr then { emit s .rreinit with linkErr := false } else s

/-- `STEP` in phase `TOP` (42_link_state_machine.md R164). -/
def stepTop (s : State) : State :=
  let s := { s with ind := !s.ind }
  if s.linkState = .idle then
    { reinitIfError (emit s (.rstrobe .sidle)) with pollK := 0, seq := .poll }
  else { s with seq := .wait }

/-- A poll the radio did not answer with Idle (42_link_state_machine.md R166). -/
def pollFailed (s : State) (st : Byte) : State :=
  if pollAgain s then { s with pollK := s.pollK + 1 }
  else { raise { s with linkErr := true } .radioIdleTimeout st with seq := .top }

/-- `STEP` in phase `POLL` (42_link_state_machine.md R165, R166). -/
def stepPoll (s : State) : State :=
  let s := emit s (.rstrobe .snop)
  let st := nextResponse s
  let s := dropResponse s
  if statusIdle st then { emit s (.rstrobe .srx) with linkState := .listening, seq := .wait }
  else pollFailed s st

/-- `STEP` in phase `WAIT` (42_link_state_machine.md R167). -/
def stepWait (s : State) : State :=
  if s.wake then { s with wake := false, seq := .post } else s

/-- `STEP` in phase `POST` (42_link_state_machine.md R168). -/
def stepPost (s : State) : Except Fault State :=
  if s.linkState ≠ .transmitting ∧ markerSet s then do
    let (_, s) ← dispatch s
    return { s with seq := .top }
  else return { s with seq := .top }

/-- `STEP` (42_link_state_machine.md R163). -/
def execStep (s : State) : Host.Outcome State Fault Refusal :=
  match s.seq with
  | .top => .next (stepTop s)
  | .poll => .next (stepPoll s)
  | .wait => .next (stepWait s)
  | .post => finish (stepPost s)

/-- `PKT` by link state, before the wake latch is set (42_link_state_machine.md R173, R174, R175). -/
def packetBoundary (s : State) : Except Fault State :=
  match s.linkState with
  | .transmitting => return { s with linkState := .idle, ind := false }
  | .listening => do
    let (_, s) ← validate s
    return { s with linkState := .idle }
  | .idle => return s

/-- `PKT` (42_link_state_machine.md R172). -/
def execPkt (s : State) : Host.Outcome State Fault Refusal :=
  finish (do
    let s ← packetBoundary s
    return { s with wake := true })

end Sys2Proof.Machine
end

