-- ==== Sys2Proof/Machine/Dispatch.lean ====
section
/-! DEFINITION. The meaning of each instruction, one arm per constructor. -/

namespace Sys2Proof.Machine

def exec (i : Instr) (s : State) : Host.Outcome State Fault Refusal :=
  match i with
  | .step => Sys2Proof.Machine.execStep s
  | .rxb b => Sys2Proof.Machine.execRxb b s
  | .tmr => Sys2Proof.Machine.execTmr s
  | .txd => Sys2Proof.Machine.execTxd s
  | .pkt => Sys2Proof.Machine.execPkt s

end Sys2Proof.Machine
end

