-- ==== Sys2Proof/Machine/Fetch.lean ====
section
/-! DEFINITION. Which operation is taken next (20_memory.md R80, R81; 30_encoding.md R90, R93, R94). -/

namespace Sys2Proof.Machine

/-- What the block does next. -/
inductive Fetched where
  /-- Run an operation. -/
  | run (i : Instr)
  /-- Ignore a reserved event word (30_encoding.md R94), for the reason the decoder gives. -/
  | ignore (e : DecodeError)
  /-- The reset input is asserted (70_reset_and_hazards.md R290). -/
  | reset
  deriving DecidableEq, Repr

/-- What the next delivered input asks for. With nothing delivered the sequencer steps by itself
(30_encoding.md R93; log 2). -/
def fetch (s : State) : Fetched :=
  match s.inputs with
  | [] => .run .step
  | .reset :: _ => .reset
  | .event w :: _ =>
    match decode w with
    | .ok i => .run i
    | .error e => .ignore e

/-- The state with the next input taken from the port. -/
def takeInput (s : State) : State := { s with inputs := s.inputs.tail }

/-- The event word of the low `nbits` bits of `w`, as the 12 wires of the event port carry it. -/
def portWord (nbits w : Nat) : EventWord := BitVec.ofNat 12 (w % 2 ^ nbits)

/-- Put an event word first on the event port. -/
def deliverFirst (s : State) (w : EventWord) : State := { s with inputs := .event w :: s.inputs }

end Sys2Proof.Machine
end

