-- ==== Sys2Proof/Machine/Step.lean ====
section
/-! DEFINITION. One step of the block: one operation, run to completion (20_memory.md R80). -/

namespace Sys2Proof.Machine

/-- One step. Parameters outside their constraints are refused (log 7); otherwise the next input is
taken and its operation runs on the state as it is (60_exceptions.md R260). -/
def step (s : State) : Host.Outcome State Fault Refusal :=
  if s.cfg.wellFormed then
    match fetch s with
    | .run i => exec i (takeInput s)
    | .ignore _ => .next (takeInput s)
    | .reset => .next (applyReset (takeInput s))
  else .refused .parametersOutOfRange

/-- The state whose next step takes the event word `w` (log 13). -/
def State.withFetchWord (s : State) (nbits w : Nat) : State := deliverFirst s (portWord nbits w)

end Sys2Proof.Machine
end

