-- ==== Sys2Proof/Machine/Trace.lean ====
section
/-! DEFINITION. The trace notation of 30_encoding.md R111 and its pseudo-operations (R112): what a
line of a trace puts on the event port and on the response port. -/

namespace Sys2Proof.Machine

/-- One line of the trace notation (30_encoding.md R111). -/
inductive TraceLine where
  /-- `STEP`, or `STEP {st=..}`. -/
  | step (st : Option Byte)
  /-- `RXB b`. -/
  | rxb (b : Byte)
  /-- `TMR`. -/
  | tmr
  /-- `TXD`. -/
  | txd
  /-- `PKT`, with the response bytes `st`, `n` and `fifo` as far as they are given. -/
  | pkt (answers : List Byte)
  deriving DecidableEq, Repr

/-- The operation a line stands for. -/
def traceInstr : TraceLine → Instr
  | .step _ => .step
  | .rxb b => .rxb b
  | .tmr => .tmr
  | .txd => .txd
  | .pkt _ => .pkt

/-- The response bytes a line gives. -/
def traceAnswers : TraceLine → List Byte
  | .step st => st.toList
  | .rxb _ => []
  | .tmr => []
  | .txd => []
  | .pkt answers => answers

/-- `RXS "text"`: one `RXB` for each character (30_encoding.md R112). -/
def traceRxs (text : List Byte) : List TraceLine := text.map .rxb

/-- `STEP*k` (30_encoding.md R112). -/
def traceSteps (k : Nat) : List TraceLine := List.replicate k (.step none)

/-- `TXD*k` (30_encoding.md R112). -/
def traceTxds (k : Nat) : List TraceLine := List.replicate k .txd

/-- `LISTEN`: `STEP` and `STEP {st=0x00}` (30_encoding.md R112). -/
def traceListen : List TraceLine := [.step none, .step (some 0x00#8)]

/-- The state with a trace's event words and responses still to come, after those already there. -/
def State.withTrace (s : State) (ls : List TraceLine) : State :=
  { s with inputs := s.inputs ++ ls.map (fun l => .event (encode (traceInstr l))),
           responses := s.responses ++ ls.flatMap traceAnswers }

end Sys2Proof.Machine
end

