-- ==== Sys2Proof/Safety.lean ====
section
/-! DEFINITION. What claims about the FVL core speak of: the invariants of 10_state.md section 5,
quiescence, delimiters in the receive buffer, runs of operations, and the reading of a decimal
text. -/

namespace Sys2Proof.Machine

/-- The bytes of a buffer at indices below `n` have all been written. -/
def State.written (s : State) (b : Buf) (n : Nat) : Prop := ∀ i < n, (s.byteAt b i).isSome = true

/-- The buffer holds the list `bs` from index `i` upward. -/
def State.holds (s : State) (b : Buf) (i : Nat) (bs : List Byte) : Prop :=
  ∀ j < bs.length, s.byteAt b (i + j) = bs[j]?

/-- The first delimiter of the first `w` bytes of `RXBUF` is at index `i` (41_outbound_dispatcher.md
R145). -/
def State.firstDelim (s : State) (w i : Nat) : Prop :=
  i < w ∧ s.byteAt .rxbuf i = some Config.delim ∧ ∀ j < i, s.byteAt .rxbuf j ≠ some Config.delim

/-- No delimiter is in the first `w` bytes of `RXBUF`. -/
def State.noDelim (s : State) (w : Nat) : Prop := ∀ j < w, s.byteAt .rxbuf j ≠ some Config.delim

/-- The frame length `DISPATCH` finds: the whole buffer after a timeout, otherwise up to and with
the first delimiter of the scan window (41_outbound_dispatcher.md R144, R145). -/
def State.frameLen (s : State) (flen : Nat) : Prop :=
  (s.pendTo = true ∧ flen = s.rxLen) ∨
    (s.pendTo = false ∧ ∃ i, s.firstDelim (min s.pendCnt s.rxLen) i ∧ flen = i + 1)

/-- A `STEP` in phase `POST` builds and hands over a frame of `flen` bytes: the link and the marker let
`DISPATCH` run (42_link_state_machine.md R168), and the frame it finds has a legal length
(41_outbound_dispatcher.md R143, R148). -/
def State.sends (s : State) (flen : Nat) : Prop :=
  s.linkState ≠ .transmitting ∧ s.pendCnt ≠ 0 ∧ s.frameLen flen ∧ flen ≠ 0 ∧ flen ≤ s.cfg.maxPay

/-- `VALIDATE` reads a frame of `n` bytes into `RFRX`: the radio answers Idle, and then a count `n` that
passes the gates (43_packet_validator.md R193, R195, R197). -/
def State.readsPacket (s : State) (n : Nat) : Prop :=
  (nextResponse s).extractLsb' 4 3 = 0#3 ∧ n = (nextResponse (dropResponse s)).toNat ∧ 5 ≤ n ∧
    n ≤ s.cfg.rfRxCap

/-- The invariants of the block. They hold after reset and every step keeps them. -/
structure State.Inv (s : State) : Prop where
  /-- The parameters meet their constraints (00_scope.md R9, R10). -/
  cfgOk : s.cfg.wellFormed = true
  /-- 10_state.md R47. -/
  rxLenLe : s.rxLen ≤ s.cfg.c
  /-- 10_state.md R47. -/
  pendCntLe : s.pendCnt ≤ s.cfg.c
  /-- 10_state.md R48. -/
  txRdLe : s.txRd ≤ s.txLen
  /-- 10_state.md R48. -/
  txLenLe : s.txLen ≤ s.cfg.txCap
  /-- 10_state.md R49. -/
  timeoutMarked : s.pendTo = true → s.pendCnt ≠ 0
  /-- "`rx_len` is never 0 when the marker is set" (92_eei_decisions.md D12). -/
  markedBytes : s.pendCnt ≠ 0 → s.rxLen ≠ 0
  /-- 10_state.md R50. -/
  activeIff : s.txActive = true ↔ 0 < s.txLen
  /-- 10_state.md R50. -/
  activeRd : s.txActive = true → s.txRd < s.txLen
  /-- 10_state.md R52. -/
  rfrxLenZero : s.rfrxLen = 0
  /-- 10_state.md R52. -/
  pollIdle : s.seq = .poll → s.linkState = .idle
  /-- "the sequencer never sleeps for ever with the link Idle" (42_link_state_machine.md R170). -/
  waitIdleWakes : s.seq = .wait → s.linkState = .idle → s.wake = true
  /-- 10_state.md R45. -/
  pollKLt : s.pollK < s.cfg.pollCap
  /-- Every buffer is in canonical form. -/
  memWf : ∀ b, Memory.wf (s.mem b) = true
  /-- Nothing is written outside a buffer (20_memory.md R79). -/
  memFits : ∀ b i, Params.cap s.cfg b ≤ i → s.byteAt b i = none
  /-- The valid bytes of `RXBUF` have been written (20_memory.md R71, R87). -/
  rxWritten : s.written .rxbuf s.rxLen
  /-- The queued bytes of `TXBUF` have been written (20_memory.md R72, R87). -/
  txWritten : s.written .txbuf s.txLen

/-- Quiescence (42_link_state_machine.md R183). -/
def State.quiescent (s : State) : Prop :=
  s.seq = .wait ∧ s.wake = false ∧ s.inputs = [] ∧ s.tmrArmed = false

/-- What was emitted between two states of a run. -/
def emittedBetween (s t : State) : List PortWord := t.outputs.drop s.outputs.length

/-- Run a list of operations, stopping at the first that does not answer a next state. -/
def execAll : List Instr → State → Host.Outcome State Fault Refusal
  | [], s => .next s
  | i :: is, s =>
    match exec i s with
    | .next t => execAll is t
    | .fault f => .fault f
    | .refused r => .refused r

/-- Read decimal digits after those already read. -/
def parseDigits (acc : Nat) : List Byte → Option Nat
  | [] => some acc
  | d :: ds =>
    if 0x30 ≤ d.toNat ∧ d.toNat ≤ 0x39 then parseDigits (acc * 10 + (d.toNat - 0x30)) ds else none

/-- Read a text as a signed decimal integer (45_numeric_formatter.md R237). -/
def parseDec : List Byte → Option Int
  | [] => none
  | d :: ds =>
    if d = 0x2D#8 then
      if ds = [] then none else (parseDigits 0 ds).map (fun n => -(n : Int))
    else (parseDigits 0 (d :: ds)).map (fun n => (n : Int))

end Sys2Proof.Machine
end

