-- ==== Sys2Proof/Certificates/Slice0/Obligations.lean ====
section
/-! DEFINITION. The statements about the FVL core for the provers. Each docstring names the rule of
spec/ it formalises, or the sections it is derived from. -/

open Sys2Proof Sys2Proof.Machine

/-! ## Encodings -/

/-- Every instruction's event word decodes to that instruction with its operand, and every word the
decoder accepts is the encoding of what it answers. Derived from 30_encoding.md section 2. -/
def Obligations.EventWordsDecodeAndEncodeAgree : Prop :=
  (∀ i : Instr, decode (encode i) = .ok i) ∧
    ∀ (w : EventWord) (i : Instr), decode w = .ok i → encode i = w

/-- 30_encoding.md R92: a word selects the row whose match it shows under the row's mask, and the
operand of `RXB` is its data byte. -/
def Obligations.DecodeSelectsTheTableRow : Prop :=
  ∀ w : EventWord,
    (decode w = .ok .step ↔ w &&& 0xFFF#12 = 0x000#12) ∧
    (∀ b, decode w = .ok (.rxb b) ↔ w &&& 0xF00#12 = 0x100#12 ∧ b = w.extractLsb' 0 8) ∧
    (decode w = .ok .tmr ↔ w &&& 0xFFF#12 = 0x200#12) ∧
    (decode w = .ok .txd ↔ w &&& 0xFFF#12 = 0x300#12) ∧
    (decode w = .ok .pkt ↔ w &&& 0xFFF#12 = 0x400#12)

/-- Words of the spec's own tables decode as they say, the reserved ones to a refusal. Derived from
95_test_vectors.md sections 8 and 9.1. -/
def Obligations.SpecEventWordsDecode : Prop :=
  decode 0x000#12 = .ok .step ∧ decode 0x100#12 = .ok (.rxb 0x00#8) ∧
    decode 0x168#12 = .ok (.rxb 0x68#8) ∧ decode 0x10A#12 = .ok (.rxb 0x0A#8) ∧
    decode 0x1FF#12 = .ok (.rxb 0xFF#8) ∧ decode 0x200#12 = .ok .tmr ∧
    decode 0x300#12 = .ok .txd ∧ decode 0x400#12 = .ok .pkt ∧
    decode 0x001#12 = .error (.reservedData 0x0#4 0x01#8) ∧
    decode 0x2FF#12 = .error (.reservedData 0x2#4 0xFF#8) ∧
    decode 0x500#12 = .error (.reservedOp 0x5#4) ∧ decode 0xFFF#12 = .error (.reservedOp 0xF#4)

/-- Two well-formed commands with the same word and the same byte lane are the same command.
Derived from 30_encoding.md section 3. -/
def Obligations.CommandWordsTellCommandsApart : Prop :=
  ∀ c d : Command, c.wellFormed = true → d.wellFormed = true → commandOut c = commandOut d → c = d

/-- Every command word and every error report word shows the match of its row of
spec/command_table.json under that row's mask, with its argument in the low byte. Derived from
30_encoding.md sections 3 and 4 and 60_exceptions.md section 1. -/
def Obligations.OutputWordsMatchTheCommandTable : Prop :=
  commandWord (.rstrobe .snop) = 0x100#12 ∧ commandWord (.rstrobe .sidle) = 0x101#12 ∧
    commandWord (.rstrobe .srx) = 0x102#12 ∧ commandWord (.rstrobe .stx) = 0x103#12 ∧
    (∀ a : Byte, commandWord (.rread a) = 0x200#12 ||| a.setWidth 12) ∧
    (∀ bs : List Byte, bs.length ≤ 255 →
      commandWord (.rwfifo bs) = 0x300#12 ||| BitVec.ofNat 12 bs.length) ∧
    (∀ n : Byte, commandWord (.rrfifo n) = 0x400#12 ||| n.setWidth 12) ∧
    commandWord .rreinit = 0x500#12 ∧
    (∀ b : Byte, commandWord (.ssend b) = 0x600#12 ||| b.setWidth 12) ∧
    commandWord (.srxie false) = 0x700#12 ∧ commandWord (.srxie true) = 0x701#12 ∧
    (∀ t : Byte, commandWord (.tarm t) = 0x800#12 ||| t.setWidth 12) ∧
    commandWord .tdisarm = 0x900#12 ∧
    ∀ info : Byte,
      errorWord .receiveBufferOverflow info = 0x100#12 ||| info.setWidth 12 ∧
      errorWord .transmitBufferOverflow info = 0x200#12 ||| info.setWidth 12 ∧
      errorWord .malformedFrame info = 0x300#12 ||| info.setWidth 12 ∧
      errorWord .radioStateMismatch info = 0x400#12 ||| info.setWidth 12 ∧
      errorWord .shortPacket info = 0x500#12 ||| info.setWidth 12 ∧
      errorWord .crcFailure info = 0x600#12 ||| info.setWidth 12 ∧
      errorWord .oversizePacket info = 0x700#12 ||| info.setWidth 12 ∧
      errorWord .radioIdleTimeout info = 0x800#12 ||| info.setWidth 12

/-! ## Taking an operation -/

/-- One step takes the first input and runs what it asks for on the state as it is: the decoded
operation of an event word, or the reset; with nothing delivered the sequencer runs `STEP`. That the
inputs stand in a list is the model's choice (log 2), and that a reset is one operation which takes
its turn among the others and leaves later inputs pending is the model's reading (DEDUCED, log 8).
Derived from 60_exceptions.md section 4, 30_encoding.md section 2 and 70_reset_and_hazards.md
section 1. -/
def Obligations.StepRunsTheDecodedOperation : Prop :=
  ∀ s : State, s.cfg.wellFormed = true →
    (∀ w rest i, s.inputs = .event w :: rest → decode w = .ok i →
      step s = exec i { s with inputs := rest }) ∧
    (∀ rest, s.inputs = .reset :: rest → step s = .next (applyReset { s with inputs := rest })) ∧
    (s.inputs = [] → step s = exec .step s)

/-- 30_encoding.md R94: a reserved event word changes no state and emits nothing; it is only no
longer on the port. -/
def Obligations.ReservedEventWordsAreIgnored : Prop :=
  ∀ (s : State) (w : EventWord) (rest : List Input), s.cfg.wellFormed = true →
    s.inputs = .event w :: rest →
    (5 ≤ (w.extractLsb' 8 4).toNat ∨
      ((w.extractLsb' 8 4 = 0x0#4 ∨ w.extractLsb' 8 4 = 0x2#4 ∨ w.extractLsb' 8 4 = 0x3#4 ∨
        w.extractLsb' 8 4 = 0x4#4) ∧ w.extractLsb' 0 8 ≠ 0x00#8)) →
    step s = .next { s with inputs := rest }

/-- Parameters outside 00_scope.md R9 are refused, which is the model's choice (log 7). Derived from
93_implementation_defined.md U16. -/
def Obligations.ParametersOutOfRangeAreRefused : Prop :=
  ∀ s : State,
    ¬ (2 ≤ s.cfg.maxPay ∧ s.cfg.maxPay ≤ 252 ∧ 1 ≤ s.cfg.txCap ∧ 5 ≤ s.cfg.rfRxCap ∧
      s.cfg.rfRxCap ≤ 255 ∧ 1 ≤ s.cfg.numCap ∧ 1 ≤ s.cfg.flushMs ∧ 1 ≤ s.cfg.tmrMax ∧
      s.cfg.tmrMax ≤ 255 ∧ 1 ≤ s.cfg.pollCap) ↔
    step s = .refused .parametersOutOfRange

/-- The reset input, taken between two other operations, puts every register at its reset value and
emits nothing. That it keeps the inputs still pending, the chosen responses, the free value counter
and the history of what was emitted is the model's choice (DEDUCED, log 8), which the spec does not
fix. Derived from 70_reset_and_hazards.md section 1 (R290, R291) and
10_state.md section 8. -/
def Obligations.ResetPutsEveryRegisterAtItsResetValue : Prop :=
  ∀ (s : State) (rest : List Input), s.cfg.wellFormed = true → s.inputs = .reset :: rest →
    ∃ t, step s = .next t ∧
      t = { s with
        rxLen := 0, txLen := 0, txRd := 0, rfrxLen := 0, pendCnt := 0, pendTo := false,
        tmrArmed := false, wake := false, linkState := .idle, linkErr := false,
        txActive := false, ind := false, seq := .top, pollK := 0,
        rxbuf := t.rxbuf, txbuf := t.txbuf, rftx := t.rftx, rfrx := t.rfrx, inputs := rest }

/-- Events raised before a reset and taken after it are harmless: a `TMR` and a `TXD` change
nothing, a `PKT` sets the wake latch only. Derived from 70_reset_and_hazards.md section 1. -/
def Obligations.StaleEventsAfterResetAreHarmless : Prop :=
  ∀ s : State,
    exec .tmr (applyReset s) = .next (applyReset s) ∧
    exec .txd (applyReset s) = .next (applyReset s) ∧
    exec .pkt (applyReset s) = .next { applyReset s with wake := true }

/-! ## Serial Receive Framer -/

/-- 40_serial_framer.md R121: `RXB b` appends the byte unless the buffer is full, clears an armed
timer, and then marks a frame at the delimiter or arms the timer. Everything else is unchanged, in
every buffer every byte but the appended one. -/
def Obligations.RxbAppendsAndMarksOrArms : Prop :=
  ∀ (s : State) (b : Byte), ∃ t, exec (.rxb b) s = .next t ∧
    t = { s with
      rxbuf := t.rxbuf,
      rxLen := if s.rxLen < 3 * s.cfg.maxPay then s.rxLen + 1 else s.rxLen,
      tmrArmed := if b = Config.delim then false else true,
      pendCnt := if b = Config.delim then t.rxLen else s.pendCnt,
      wake := if b = Config.delim then true else s.wake,
      outputs := s.outputs ++
        (if s.rxLen < 3 * s.cfg.maxPay then [] else [errorOut .receiveBufferOverflow b]) ++
        (if s.tmrArmed then [commandOut .tdisarm] else []) ++
        (if b = Config.delim then []
          else [commandOut (.tarm (BitVec.ofNat 8 (min s.cfg.flushMs s.cfg.tmrMax)))]) } ∧
    (s.rxLen < 3 * s.cfg.maxPay → t.byteAt .rxbuf s.rxLen = some b) ∧
    ∀ (buf : Buf) (i : Nat), ¬ (buf = .rxbuf ∧ s.rxLen < 3 * s.cfg.maxPay ∧ i = s.rxLen) →
      t.byteAt buf i = s.byteAt buf i

/-- 40_serial_framer.md R126: `TMR` disarms, and marks the whole buffer unless it is empty. Nothing
else changes and nothing is emitted. -/
def Obligations.TmrMarksTheWholeBuffer : Prop :=
  ∀ s : State, exec .tmr s = .next (if 0 < s.rxLen
    then { s with tmrArmed := false, pendCnt := s.rxLen, pendTo := true, wake := true }
    else { s with tmrArmed := false })

/-- The source's second property: bytes without a delimiter, followed by the timeout, leave as one
frame of all of them. Derived from 40_serial_framer.md section 5 and 41_outbound_dispatcher.md
section 3. -/
def Obligations.UnterminatedBytesLeaveAsOneFrame : Prop :=
  ∀ (s : State) (bs : List Byte), s.Inv → s.rxLen = 0 → bs ≠ [] → bs.length ≤ s.cfg.maxPay →
    Config.delim ∉ bs →
    ∃ t u, execAll (bs.map Instr.rxb ++ [.tmr]) s = .next t ∧
      t.rxLen = bs.length ∧ t.pendCnt = bs.length ∧ t.pendTo = true ∧ t.wake = true ∧
      t.tmrArmed = false ∧ t.linkState = s.linkState ∧ t.holds .rxbuf 0 bs ∧
      dispatch t = .ok (.dispatched bs.length, u) ∧
      u.rxLen = 0 ∧ u.pendCnt = 0 ∧ u.pendTo = false ∧ u.linkState = .transmitting ∧
      u.holds .rftx 0 (BitVec.ofNat 8 bs.length :: bs) ∧
      emittedBetween t u = [commandOut (.srxie false), commandOut (.srxie true)] ++
        (if s.linkState = .listening then [commandOut (.rstrobe .sidle)] else []) ++
        [commandOut (.rwfifo (BitVec.ofNat 8 bs.length :: bs)), commandOut (.rstrobe .stx)]

/-- The source's first property, with the bound of the length guard: bytes with exactly one
delimiter leave as one frame up to and with it, and the bytes behind it stay, in order; the words
emitted are those of the operation. Derived from 41_outbound_dispatcher.md sections 2, 3 and 4. -/
def Obligations.DelimitedBytesLeaveAsOneFrame : Prop :=
  ∀ (s : State) (bs tail : List Byte), s.Inv → s.rxLen = 0 →
    bs.length + 1 ≤ s.cfg.maxPay → bs.length + 1 + tail.length ≤ 3 * s.cfg.maxPay →
    Config.delim ∉ bs → Config.delim ∉ tail →
    ∃ t u, execAll ((bs ++ [Config.delim] ++ tail).map Instr.rxb) s = .next t ∧
      t.rxLen = bs.length + 1 + tail.length ∧ t.pendCnt = bs.length + 1 ∧ t.pendTo = false ∧
      t.wake = true ∧ t.holds .rxbuf 0 (bs ++ [Config.delim] ++ tail) ∧
      dispatch t = .ok (.dispatched (bs.length + 1), u) ∧
      u.rxLen = tail.length ∧ u.holds .rxbuf 0 tail ∧ u.linkState = .transmitting ∧
      u.holds .rftx 0 (BitVec.ofNat 8 (bs.length + 1) :: (bs ++ [Config.delim])) ∧
      emittedBetween t u = [commandOut (.srxie false), commandOut (.srxie true)] ++
        (if s.linkState = .listening then [commandOut (.rstrobe .sidle)] else []) ++
        [commandOut (.rwfifo (BitVec.ofNat 8 (bs.length + 1) :: (bs ++ [Config.delim]))),
          commandOut (.rstrobe .stx)]

/-! ## Outbound Dispatcher -/

/-- `DISPATCH` answers `Empty`, with nothing changed and nothing emitted, exactly when the marker is
not set. Derived from 41_outbound_dispatcher.md section 1. -/
def Obligations.DispatchIsEmptyExactlyWithoutMarker : Prop :=
  (∀ s : State, s.pendCnt = 0 → dispatch s = .ok (.empty, s)) ∧
    ∀ s t : State, dispatch s = .ok (.empty, t) → s.pendCnt = 0

/-- 41_outbound_dispatcher.md R145: the delimiter is sought among the first
`min(pend_cnt, rx_len)` bytes, the least index wins, and the frame ends with it. -/
def Obligations.ScanFindsTheLeastDelimiterOfTheWindow : Prop :=
  ∀ s : State, s.Inv → s.pendTo = false →
    ∃ r, frameLength s = .ok (r, s) ∧
      ∀ flen, r = some flen ↔ ∃ i, flen = i + 1 ∧ i < min s.pendCnt s.rxLen ∧
        s.byteAt .rxbuf i = some Config.delim ∧ ∀ j < i, s.byteAt .rxbuf j ≠ some Config.delim

/-- 42_link_state_machine.md R168: `STEP` in phase `POST` runs `DISPATCH` exactly when the link is
not Transmitting and the marker is set, uses no result of it, and goes to `TOP`. -/
def Obligations.PostRunsDispatchExactlyWhenAllowed : Prop :=
  ∀ s : State, s.seq = .post →
    (∀ r t, s.linkState ≠ .transmitting → s.pendCnt ≠ 0 → dispatch s = .ok (r, t) →
      exec .step s = .next { t with seq := .top }) ∧
    (s.linkState = .transmitting ∨ s.pendCnt = 0 → exec .step s = .next { s with seq := .top })

/-- `STEP` in phase `POST` with a frame of legal length sends it: the frame is the first `flen` bytes
of the receive buffer, verbatim (41_outbound_dispatcher.md R149); its length byte does not count
itself; what remains moves to the front in order; the marker's count is kept where bytes remain;
the critical section ends before the hand-off; and nothing else changes, in any buffer. The effects
on this path of 41_outbound_dispatcher.md R147, R150, R151 and R152 are stated too; what those rules
say of other paths and of a following `DISPATCH` is not, so they are not among the rules cited. -/
def Obligations.PostSendsTheFrameVerbatim : Prop :=
  ∀ (s : State) (flen : Nat), s.Inv → s.seq = .post → s.linkState ≠ .transmitting →
    s.pendCnt ≠ 0 → s.frameLen flen → flen ≤ s.cfg.maxPay →
    ∃ (t : State) (frame : List Byte), exec .step s = .next t ∧
      frame.length = flen ∧ s.holds .rxbuf 0 frame ∧
      t = { s with
        rxbuf := t.rxbuf, rftx := t.rftx, rxLen := s.rxLen - flen,
        pendCnt := if flen < s.rxLen then s.pendCnt else 0, pendTo := false,
        linkState := .transmitting, ind := true, seq := .top,
        outputs := s.outputs ++ [commandOut (.srxie false), commandOut (.srxie true)] ++
          (if s.linkState = .listening then [commandOut (.rstrobe .sidle)] else []) ++
          [commandOut (.rwfifo (BitVec.ofNat 8 flen :: frame)), commandOut (.rstrobe .stx)] } ∧
      t.holds .rftx 0 (BitVec.ofNat 8 flen :: frame) ∧
      (∀ i, flen < i → t.byteAt .rftx i = s.byteAt .rftx i) ∧
      (∀ j < s.rxLen - flen, t.byteAt .rxbuf j = s.byteAt .rxbuf (flen + j)) ∧
      (∀ i, s.rxLen - flen ≤ i → t.byteAt .rxbuf i = s.byteAt .rxbuf i)

/-- 41_outbound_dispatcher.md R146: with no delimiter in the window, a zero length, or a length above
`MAXPAY`, the receive registers are cleared, `MalformedFrame` is reported between the two `SRXIE`
commands, and nothing else changes but the phase. -/
def Obligations.InvalidFrameResetsTheReceiveBuffer : Prop :=
  ∀ s : State, s.rxLen ≤ 3 * s.cfg.maxPay → s.written .rxbuf s.rxLen → s.seq = .post →
    s.linkState ≠ .transmitting → s.pendCnt ≠ 0 →
    (s.pendTo = false → s.noDelim (min s.pendCnt s.rxLen) →
      exec .step s = .next { s with
        pendCnt := 0, pendTo := false, rxLen := 0, seq := .top,
        outputs := s.outputs ++ [commandOut (.srxie false), errorOut .malformedFrame 0x00#8,
          commandOut (.srxie true)] }) ∧
    (s.frameLen 0 →
      exec .step s = .next { s with
        pendCnt := 0, pendTo := false, rxLen := 0, seq := .top,
        outputs := s.outputs ++ [commandOut (.srxie false), errorOut .malformedFrame 0x00#8,
          commandOut (.srxie true)] }) ∧
    (∀ flen, s.frameLen flen → s.cfg.maxPay < flen → flen ≠ 0 →
      exec .step s = .next { s with
        pendCnt := 0, pendTo := false, rxLen := 0, seq := .top,
        outputs := s.outputs ++ [commandOut (.srxie false),
          errorOut .malformedFrame (BitVec.ofNat 8 (min flen 255)), commandOut (.srxie true)] })

/-! ## Link state machine -/

/-- 42_link_state_machine.md R164: `STEP` in phase `TOP`. -/
def Obligations.TopTogglesAndLeavesIdleThroughPolling : Prop :=
  ∀ s : State, s.seq = .top →
    exec .step s = .next (if s.linkState = .idle
      then { s with
        ind := !s.ind, linkErr := false, pollK := 0, seq := .poll,
        outputs := s.outputs ++ [commandOut (.rstrobe .sidle)] ++
          (if s.linkErr then [commandOut .rreinit] else []) }
      else { s with ind := !s.ind, seq := .wait })

/-- 42_link_state_machine.md R165: `STEP` in phase `POLL` where the radio's status byte has
`STATE = 0`. -/
def Obligations.PollAnsweredIdleStartsListening : Prop :=
  ∀ s : State, s.seq = .poll → (nextResponse s).extractLsb' 4 3 = 0#3 →
    exec .step s = .next { dropResponse s with
      linkState := .listening, seq := .wait,
      outputs := s.outputs ++ [commandOut (.rstrobe .snop), commandOut (.rstrobe .srx)] }

/-- `STEP` in phase `POLL` where the radio does not answer Idle (42_link_state_machine.md section 2):
another poll below the cap, at the cap the error flag, the report and a new start of the loop. -/
def Obligations.PollNotIdleCountsUpToTheCap : Prop :=
  ∀ s : State, s.seq = .poll → (nextResponse s).extractLsb' 4 3 ≠ 0#3 →
    (s.pollK + 1 < s.cfg.pollCap → exec .step s = .next { dropResponse s with
      pollK := s.pollK + 1, outputs := s.outputs ++ [commandOut (.rstrobe .snop)] }) ∧
    (s.cfg.pollCap ≤ s.pollK + 1 → exec .step s = .next { dropResponse s with
      linkErr := true, seq := .top,
      outputs := s.outputs ++ [commandOut (.rstrobe .snop),
        errorOut .radioIdleTimeout (nextResponse s)] })

/-- A radio that never answers Idle ends the wait after exactly `POLL_CAP` polls: the link state is as
it was, the error flag is set, the last status byte is reported, and the loop starts over. Derived
from 42_link_state_machine.md section 2. -/
def Obligations.PollCapBoundsTheWait : Prop :=
  ∀ (s : State) (sts rest : List Byte) (last : Byte), s.seq = .poll → s.pollK = 0 →
    s.responses = sts ++ [last] ++ rest → sts.length + 1 = s.cfg.pollCap →
    (∀ st ∈ sts ++ [last], st.extractLsb' 4 3 ≠ 0#3) →
    execAll (List.replicate s.cfg.pollCap .step) s = .next { s with
      pollK := sts.length, linkErr := true, seq := .top, responses := rest,
      outputs := s.outputs ++ List.replicate s.cfg.pollCap (commandOut (.rstrobe .snop)) ++
        [errorOut .radioIdleTimeout last] }

/-- 42_link_state_machine.md R167 and 10_state.md R39: `STEP` in phase `WAIT` goes on only when the
wake latch is set, and clears it; the latch is set by an `RXB` of the delimiter, a `TMR` with a
non-empty buffer and every `PKT`, and cleared by that `STEP` alone. -/
def Obligations.OnlyTheWakeLatchEndsTheWait : Prop :=
  (∀ s : State, s.seq = .wait →
    exec .step s = .next (if s.wake then { s with wake := false, seq := .post } else s)) ∧
  ∀ (i : Instr) (s t : State), exec i s = .next t →
    (t.wake = true ↔ i = .rxb Config.delim ∨ (i = .tmr ∧ 0 < s.rxLen) ∨ i = .pkt ∨
      (s.wake = true ∧ ¬ (i = .step ∧ s.seq = .wait)))

/-- 42_link_state_machine.md R173: `PKT` while Transmitting. -/
def Obligations.PktEndsATransmission : Prop :=
  ∀ s : State, s.linkState = .transmitting →
    exec .pkt s = .next { s with linkState := .idle, ind := false, wake := true }

/-- 42_link_state_machine.md R175: `PKT` while Idle. -/
def Obligations.PktWhileIdleOnlyWakes : Prop :=
  ∀ s : State, s.linkState = .idle → exec .pkt s = .next { s with wake := true }

/-- 42_link_state_machine.md R174: `PKT` while Listening runs `VALIDATE` and always clears
Listening, whatever the result, and leaves the indicator as it was. -/
def Obligations.PktWhileListeningValidatesAndGoesIdle : Prop :=
  ∀ s : State, s.Inv → s.linkState = .listening →
    ∃ r u, validate s = .ok (r, u) ∧ u.ind = s.ind ∧
      exec .pkt s = .next { u with linkState := .idle, wake := true }

/-! ## Packet validator -/

/-- 43_packet_validator.md R193: a status other than Idle sets the error flag, reports
`RadioStateMismatch` with the status byte and rejects; nothing is read from the FIFO. -/
def Obligations.UnexpectedStatusRejectsThePacket : Prop :=
  ∀ s : State, s.linkState = .listening → (nextResponse s).extractLsb' 4 3 ≠ 0#3 →
    (∃ u, validate s = .ok (.rejected, u)) ∧ exec .pkt s = .next { dropResponse s with
      linkErr := true, rfrxLen := 0, linkState := .idle, wake := true,
      outputs := s.outputs ++ [commandOut (.rstrobe .snop),
        errorOut .radioStateMismatch (nextResponse s)] }

/-- 43_packet_validator.md R195 and R197: after an Idle status, a count below 5 or above `RFRXCAP`
sets the error flag, reports `ShortPacket` or `OversizePacket` with the count, and rejects with
nothing read from the FIFO. -/
def Obligations.CountOutOfRangeRejectsThePacket : Prop :=
  ∀ (s : State) (n : Byte), s.linkState = .listening → (nextResponse s).extractLsb' 4 3 = 0#3 →
    n = nextResponse (dropResponse s) →
    (n.toNat < 5 → (∃ u, validate s = .ok (.rejected, u)) ∧
      exec .pkt s = .next { dropResponses s 2 with
      linkErr := true, rfrxLen := 0, linkState := .idle, wake := true,
      outputs := s.outputs ++ [commandOut (.rstrobe .snop),
        commandOut (.rread s.cfg.regRxCount), errorOut .shortPacket n] }) ∧
    (5 ≤ n.toNat → s.cfg.rfRxCap < n.toNat → (∃ u, validate s = .ok (.rejected, u)) ∧
      exec .pkt s = .next { dropResponses s 2 with
      linkErr := true, rfrxLen := 0, linkState := .idle, wake := true,
      outputs := s.outputs ++ [commandOut (.rstrobe .snop),
        commandOut (.rread s.cfg.regRxCount), errorOut .oversizePacket n] })

/-- One `RRFIFO n` fills `RFRX[0 .. n)` in FIFO order; where bit 7 of the last byte is clear the
packet is rejected with `CrcFailure`, the error flag as it was, the transmit buffer untouched.
Derived from 43_packet_validator.md section 3 (step 3 and gate 4). -/
def Obligations.ClearCrcBitRejectsThePacket : Prop :=
  ∀ (s : State) (nb : Byte) (fifo : List Byte) (q : Byte), s.linkState = .listening →
    (nextResponse s).extractLsb' 4 3 = 0#3 → nb = nextResponse (dropResponse s) →
    5 ≤ nb.toNat → nb.toNat ≤ s.cfg.rfRxCap →
    fifo = nextResponses (dropResponses s 2) nb.toNat → fifo[nb.toNat - 1]? = some q →
    q.getLsbD 7 = false →
    ∃ t u, validate s = .ok (.rejected, u) ∧ exec .pkt s = .next t ∧
      t = { dropResponses s (nb.toNat + 2) with
        rfrx := t.rfrx, rfrxLen := 0, linkState := .idle, wake := true,
        outputs := s.outputs ++ [commandOut (.rstrobe .snop),
          commandOut (.rread s.cfg.regRxCount), commandOut (.rrfifo nb),
          errorOut .crcFailure q] } ∧
      t.holds .rfrx 0 fifo ∧ ∀ i, nb.toNat ≤ i → t.byteAt .rfrx i = s.byteAt .rfrx i

/-- A packet whose payload does not fit the free space of the transmit buffer is rejected whole:
`TransmitBufferOverflow` with the payload length, nothing appended, the error flag as it was.
Derived from 43_packet_validator.md section 3 (gate 5). -/
def Obligations.FullTransmitBufferRejectsThePacket : Prop :=
  ∀ (s : State) (nb : Byte) (fifo : List Byte) (q : Byte), s.linkState = .listening →
    (nextResponse s).extractLsb' 4 3 = 0#3 → nb = nextResponse (dropResponse s) →
    5 ≤ nb.toNat → nb.toNat ≤ s.cfg.rfRxCap →
    fifo = nextResponses (dropResponses s 2) nb.toNat → fifo[nb.toNat - 1]? = some q →
    q.getLsbD 7 = true → s.cfg.txCap - s.txLen < nb.toNat - 3 →
    ∃ t u, validate s = .ok (.rejected, u) ∧ exec .pkt s = .next t ∧
      t = { dropResponses s (nb.toNat + 2) with
        rfrx := t.rfrx, rfrxLen := 0, linkState := .idle, wake := true,
        outputs := s.outputs ++ [commandOut (.rstrobe .snop),
          commandOut (.rread s.cfg.regRxCount), commandOut (.rrfifo nb),
          errorOut .transmitBufferOverflow (BitVec.ofNat 8 (nb.toNat - 3))] } ∧
      t.holds .rfrx 0 fifo ∧ ∀ i, nb.toNat ≤ i → t.byteAt .rfrx i = s.byteAt .rfrx i

/-- A packet that passes every gate: its payload, bytes 1 to n-3 of the frame (43_packet_validator.md
R200), goes behind what is queued; the telemetry text goes behind the payload, all or nothing
(R205); an idle drainer is handed the first payload byte (R206); and nothing else changes, in any
buffer. -/
def Obligations.AcceptedPacketIsForwarded : Prop :=
  ∀ (s : State) (nb : Byte) (fifo : List Byte) (strength q first : Byte) (text : List Byte)
    (n : Nat), s.Inv → s.linkState = .listening →
    (nextResponse s).extractLsb' 4 3 = 0#3 → nb = nextResponse (dropResponse s) →
    n = nb.toNat → 5 ≤ n → n ≤ s.cfg.rfRxCap →
    fifo = nextResponses (dropResponses s 2) n → fifo[1]? = some first →
    fifo[n - 2]? = some strength → fifo[n - 1]? = some q →
    q.getLsbD 7 = true → n - 3 ≤ s.cfg.txCap - s.txLen →
    text = telemetryText s.cfg strength q →
    ∃ t u, validate s = .ok (.forwarded (n - 3), u) ∧ exec .pkt s = .next t ∧
      t = { dropResponses s (n + 2) with
        rfrx := t.rfrx, txbuf := t.txbuf, rfrxLen := 0, linkState := .idle, wake := true,
        txLen := s.txLen + (n - 3) +
          (if text.length ≤ s.cfg.txCap - (s.txLen + (n - 3)) then text.length else 0),
        txActive := true,
        outputs := s.outputs ++ [commandOut (.rstrobe .snop),
          commandOut (.rread s.cfg.regRxCount), commandOut (.rrfifo nb)] ++
          (if text.length ≤ s.cfg.txCap - (s.txLen + (n - 3)) then []
            else [errorOut .transmitBufferOverflow (BitVec.ofNat 8 text.length)]) ++
          (if s.txActive then [] else [commandOut (.ssend first)]) } ∧
      t.holds .rfrx 0 fifo ∧ (∀ i, n ≤ i → t.byteAt .rfrx i = s.byteAt .rfrx i) ∧
      (∀ j < n - 3, t.byteAt .txbuf (s.txLen + j) = fifo[1 + j]?) ∧
      (text.length ≤ s.cfg.txCap - (s.txLen + (n - 3)) →
        t.holds .txbuf (s.txLen + (n - 3)) text) ∧
      ∀ i, i < s.txLen ∨ t.txLen ≤ i → t.byteAt .txbuf i = s.byteAt .txbuf i

/-- Every path of `VALIDATE` ends with the receive frame's length zero, and a rejection leaves the
transmit buffer, its cursors and the drainer as they were and sends no byte. Derived from
43_packet_validator.md section 6. -/
def Obligations.RejectedPacketAppendsNothing : Prop :=
  ∀ (s u : State) (r : ValidateResult), validate s = .ok (r, u) →
    u.rfrxLen = 0 ∧
    (r = .rejected → u.txbuf = s.txbuf ∧ u.txLen = s.txLen ∧ u.txRd = s.txRd ∧
      u.txActive = s.txActive ∧ ∀ b, commandOut (.ssend b) ∉ emittedBetween s u)

/-! ## Numeric formatter -/

/-- 45_numeric_formatter.md R233: `FMTDEC` fails exactly when the capacity is below the length of
the text and its terminator. -/
def Obligations.FmtDecFailsExactlyWhenTooSmall : Prop :=
  (∀ (v : BitVec 16) (capacity : Nat),
    (fmtDec v capacity).len = 0 ↔ capacity < (decText v.toInt).length + 1) ∧
  (∀ v : BitVec 16, (fmtDec v 0).len = 0) ∧
  (∀ v : BitVec 16, 0 ≤ v.toInt → v.toInt ≤ 9 → (decText v.toInt).length + 1 = 2) ∧
  (decText 255).length + 1 = 4 ∧ (decText (-32768)).length + 1 = 7

/-- On success the buffer starts with the text and the terminator, the length answered counts neither
the terminator nor the unspecified rest, and the buffer is the caller's `capacity` bytes. Derived
from 45_numeric_formatter.md; the terminator's value is PRESUMED there (log 15). -/
def Obligations.FmtDecWritesTextAndTerminator : Prop :=
  ∀ (v : BitVec 16) (capacity : Nat), (decText v.toInt).length + 1 ≤ capacity →
    (fmtDec v capacity).len = (decText v.toInt).length ∧
    (fmtDec v capacity).buf.length = capacity ∧
    (fmtDec v capacity).buf.take (decText v.toInt).length = decText v.toInt ∧
    (fmtDec v capacity).buf[(decText v.toInt).length]? = some 0x00#8

/-- The text of a number is its decimal digits, after a minus sign for a negative one, with no leading
zero unless it is the one digit of zero. Derived from 45_numeric_formatter.md; the digit characters
are PRESUMED there (log 15). -/
def Obligations.DecimalTextIsCanonical : Prop :=
  ∀ v : Int, ∃ ds : List Byte, decText v = (if v < 0 then [0x2D#8] else []) ++ ds ∧ ds ≠ [] ∧
    (∀ d ∈ ds, 0x30 ≤ d.toNat ∧ d.toNat ≤ 0x39) ∧
    (ds.head? = some 0x30#8 → ds = [0x30#8]) ∧ (v = 0 ↔ ds = [0x30#8]) ∧
    parseDigits 0 ds = some v.natAbs

/-- What `FMTDEC` writes reads back as the value it was given, for every value of the argument's
width, so different values have different texts. Derived from 45_numeric_formatter.md (the round
trip of the source's contract). -/
def Obligations.FmtDecRoundTrips : Prop :=
  (∀ (v : BitVec 16) (capacity : Nat), (decText v.toInt).length + 1 ≤ capacity →
    parseDec ((fmtDec v capacity).buf.take (fmtDec v capacity).len) = some v.toInt) ∧
  ∀ v w : BitVec 16, decText v.toInt = decText w.toInt → v = w

/-- Each number of the telemetry text is the decimal text of its unsigned byte, or the placeholder
exactly where `NUMCAP` is too small for it, which no byte is from 4 on; between 4 and 8 bytes in
all. The bytes 0x3F, 0x20, 0x0A and those of the digits are what the spec supplies from general
knowledge (PRESUMED, log 15). Derived from 43_packet_validator.md section 4. -/
def Obligations.TelemetryTextIsDecimalOrPlaceholder : Prop :=
  ∀ (p : Params) (a b : Byte),
    telemetryText p a b =
      (if p.numCap < (decText (a.toNat : Int)).length + 1 then [0x3F#8]
        else decText (a.toNat : Int)) ++ [0x20#8] ++
      (if p.numCap < (decText (b.toNat : Int)).length + 1 then [0x3F#8]
        else decText (b.toNat : Int)) ++ [0x0A#8] ∧
    (4 ≤ p.numCap → telemetryText p a b =
      decText (a.toNat : Int) ++ [0x20#8] ++ decText (b.toNat : Int) ++ [0x0A#8]) ∧
    4 ≤ (telemetryText p a b).length ∧ (telemetryText p a b).length ≤ 8

/-! ## Serial Transmit Drainer -/

/-- 44_serial_drainer.md R221 and R222: `TXD` of an active drainer advances the read cursor and
sends the byte there, or at the end of the queue empties it; of an idle drainer it changes
nothing. -/
def Obligations.TxdSendsTheNextByteOrEndsTheQueue : Prop :=
  ∀ s : State, s.Inv →
    (s.txActive = false → exec .txd s = .next s) ∧
    (s.txActive = true → s.txRd + 1 = s.txLen →
      exec .txd s = .next { s with txRd := 0, txLen := 0, txActive := false }) ∧
    (s.txActive = true → s.txRd + 1 ≠ s.txLen →
      ∃ b, s.byteAt .txbuf (s.txRd + 1) = some b ∧
        exec .txd s = .next { s with
          txRd := s.txRd + 1, outputs := s.outputs ++ [commandOut (.ssend b)] })

/-- The bytes queued behind the one being sent leave in index order, one for each `TXD`, and one
more `TXD` empties the queue. Derived from 44_serial_drainer.md R224's section. -/
def Obligations.DrainerSendsTheQueueInOrder : Prop :=
  ∀ (s : State) (bs : List Byte), s.Inv → s.txActive = true →
    s.txRd + 1 + bs.length = s.txLen → s.holds .txbuf (s.txRd + 1) bs →
    execAll (List.replicate (bs.length + 1) .txd) s = .next { s with
      txRd := 0, txLen := 0, txActive := false,
      outputs := s.outputs ++ bs.map (fun b => commandOut (.ssend b)) }

/-! ## The whole machine -/

/-- A byte written is read back, and no other byte of any buffer changes. A write outside the buffer
does not happen: that it answers the fault `indexOutOfRange` is the model's choice (DEDUCED, log 6),
since the spec says only that such an index never occurs (00_scope.md section 7, R15). Derived from
20_memory.md sections 1 and 3. -/
def Obligations.WrittenByteIsReadBack : Prop :=
  ∀ (s : State) (b : Buf) (i : Nat) (v : Byte),
    (i < Params.cap s.cfg b → ∃ t, memWrite s b i v = .ok t ∧ memRead t b i = .ok v ∧
      (∀ b' j, ¬ (b' = b ∧ j = i) → t.byteAt b' j = s.byteAt b' j) ∧
      (Memory.wf (s.mem b) = true → Memory.wf (t.mem b) = true)) ∧
    (Params.cap s.cfg b ≤ i → memWrite s b i v = .error (.indexOutOfRange b i))

/-- The invariants of 10_state.md section 5 hold after reset, for every legal value of the
parameters. Derived from that section. -/
def Obligations.InvariantsHoldAfterReset : Prop :=
  State.reset.Inv ∧ ∀ p : Params, p.wellFormed = true → (State.resetWith p).Inv

/-- The invariants of 10_state.md section 5, with the canonical form of the buffers and the bounds
of every cursor, are kept by every step, whatever input it takes. Derived from that section. -/
def Obligations.EveryStepKeepsTheInvariants : Prop :=
  ∀ s t : State, s.Inv → step s = .next t → t.Inv

/-- From every state that meets the invariants every step has a next state: no index is outside its
buffer, and no byte is read that nothing has written. Derived from 60_exceptions.md section 1 and
20_memory.md sections 4 and 9. -/
def Obligations.NoStepStops : Prop :=
  ∀ s : State, s.Inv → ∃ t, step s = .next t

/-- Every cursor and counter fits the width the spec gives its register. Derived from 10_state.md
sections 2 and 3. -/
def Obligations.RegistersFitTheirWidths : Prop :=
  ∀ s : State, s.Inv →
    s.rxLen < 2 ^ Nat.clog 2 (s.cfg.c + 1) ∧ s.pendCnt < 2 ^ Nat.clog 2 (s.cfg.c + 1) ∧
    s.txLen < 2 ^ Nat.clog 2 (s.cfg.txCap + 1) ∧ s.txRd < 2 ^ Nat.clog 2 (s.cfg.txCap + 1) ∧
    s.rfrxLen < 2 ^ Nat.clog 2 (s.cfg.rfRxCap + 1) ∧
    s.pollK < 2 ^ max 1 (Nat.clog 2 s.cfg.pollCap)

/-- The link state moves only along the edges of 42_link_state_machine.md's transition table.
Derived from its section 1. -/
def Obligations.LinkStateMovesOnlyAlongItsTable : Prop :=
  ∀ (i : Instr) (s t : State), s.Inv → exec i s = .next t →
    t.linkState = s.linkState ∨
    (i = .step ∧ s.seq = .poll ∧ s.linkState = .idle ∧ t.linkState = .listening) ∨
    (i = .step ∧ s.seq = .post ∧ s.linkState ≠ .transmitting ∧ t.linkState = .transmitting) ∨
    (i = .pkt ∧ t.linkState = .idle)

/-- At most one radio frame is in flight: while the link is Transmitting only a `PKT` leaves that
state, and no operation hands the radio a frame; one is handed over only by a `STEP` that goes from
another link state to Transmitting. Derived from 42_link_state_machine.md section 6. -/
def Obligations.AtMostOneFrameInFlight : Prop :=
  ∀ (i : Instr) (s t : State), s.Inv → exec i s = .next t →
    (s.linkState = .transmitting → i ≠ .pkt → t.linkState = .transmitting) ∧
    ((commandOut (.rstrobe .stx) ∈ emittedBetween s t ∨
        ∃ data, commandOut (.rwfifo data) ∈ emittedBetween s t) →
      i = .step ∧ s.seq = .post ∧ s.linkState ≠ .transmitting ∧ t.linkState = .transmitting)

/-- 42_link_state_machine.md R181: the indicator is inverted by `STEP` in phase `TOP`, set by a
dispatch, cleared by the `PKT` that ends a transmission, and written nowhere else. -/
def Obligations.IndicatorIsWrittenInThreePlacesOnly : Prop :=
  ∀ (i : Instr) (s t : State), exec i s = .next t →
    t.ind = (if i = .step ∧ s.seq = .top then !s.ind
      else if i = .step ∧ s.seq = .post ∧ s.linkState ≠ .transmitting ∧
        t.linkState = .transmitting then true
      else if i = .pkt ∧ s.linkState = .transmitting then false
      else s.ind)

/-- The Link Error Flag is cleared only by the `TOP` phase of an Idle link, which commands the
reinitialization, and set only with a report of one of the four radio-side errors. Derived from
10_state.md section 3, 60_exceptions.md section 1 and 70_reset_and_hazards.md section 2. -/
def Obligations.LinkErrorFlagIsNeverLost : Prop :=
  ∀ (i : Instr) (s t : State), exec i s = .next t →
    (s.linkErr = true → t.linkErr = false → i = .step ∧ s.seq = .top ∧ s.linkState = .idle ∧
      commandOut .rreinit ∈ emittedBetween s t) ∧
    (s.linkErr = false → t.linkErr = true →
      (i = .step ∧ s.seq = .poll ∧ ∃ st, errorOut .radioIdleTimeout st ∈ emittedBetween s t) ∨
      (i = .pkt ∧ s.linkState = .listening ∧
        ∃ info, errorOut .radioStateMismatch info ∈ emittedBetween s t ∨
          errorOut .shortPacket info ∈ emittedBetween s t ∨
          errorOut .oversizePacket info ∈ emittedBetween s t))

/-- What each operation may change, one clause for each column of the access table: the state the
column marks as written, and the model's own ports (log 3, log 4); everything else is as it was.
Within a buffer that a column writes, only the bytes the operation stores to may differ: `RXB` stores
at `rx_len` while there is room; `VALIDATE` stores the count's bytes from index 0 of `RFRX`, and in
`TXBUF` from the old to the new `tx_len`; a dispatch of `flen` bytes stores `RFTX[0 .. flen]` and the
`rx_len - flen` bytes that remain in `RXBUF`. Derived from 10_state.md section 7,
40_serial_framer.md section 2, 41_outbound_dispatcher.md section 2 and 43_packet_validator.md
sections 3 and 4. -/
def Obligations.OperationsWriteOnlyTheirColumns : Prop :=
  -- RXB
  (∀ (b : Byte) (s t : State), exec (.rxb b) s = .next t →
    t = { s with
      rxLen := t.rxLen, rxbuf := t.rxbuf, pendCnt := t.pendCnt,
      tmrArmed := t.tmrArmed, wake := t.wake, outputs := t.outputs } ∧
    ∀ a, ¬ (s.rxLen < 3 * s.cfg.maxPay ∧ a = s.rxLen) → t.byteAt .rxbuf a = s.byteAt .rxbuf a) ∧
  -- TMR
  (∀ s t : State, exec .tmr s = .next t →
    t = { s with
      pendCnt := t.pendCnt, pendTo := t.pendTo, tmrArmed := t.tmrArmed, wake := t.wake }) ∧
  -- TXD
  (∀ s t : State, exec .txd s = .next t →
    t = { s with
      txLen := t.txLen, txRd := t.txRd, txActive := t.txActive, outputs := t.outputs }) ∧
  -- PKT (tx-complete)
  (∀ s t : State, s.linkState = .transmitting → exec .pkt s = .next t →
    t = { s with wake := t.wake, linkState := t.linkState, ind := t.ind }) ∧
  -- PKT + VALIDATE
  (∀ s t : State, s.linkState = .listening → exec .pkt s = .next t →
    t = { s with
      wake := t.wake, linkState := t.linkState, linkErr := t.linkErr, txLen := t.txLen,
      txActive := t.txActive, txbuf := t.txbuf, rfrxLen := t.rfrxLen, rfrx := t.rfrx,
      responses := t.responses, freeIdx := t.freeIdx, outputs := t.outputs } ∧
    (∀ a, (∀ n, s.readsPacket n → n ≤ a) → t.byteAt .rfrx a = s.byteAt .rfrx a) ∧
    ∀ a, a < s.txLen ∨ t.txLen ≤ a → t.byteAt .txbuf a = s.byteAt .txbuf a) ∧
  -- PKT (Idle)
  (∀ s t : State, s.linkState = .idle → exec .pkt s = .next t → t = { s with wake := t.wake }) ∧
  -- STEP TOP
  (∀ s t : State, s.seq = .top → exec .step s = .next t →
    t = { s with
      linkErr := t.linkErr, ind := t.ind, seq := t.seq, pollK := t.pollK,
      outputs := t.outputs }) ∧
  -- STEP POLL
  (∀ s t : State, s.seq = .poll → exec .step s = .next t →
    t = { s with
      linkState := t.linkState, linkErr := t.linkErr, seq := t.seq, pollK := t.pollK,
      responses := t.responses, freeIdx := t.freeIdx, outputs := t.outputs }) ∧
  -- STEP WAIT
  (∀ s t : State, s.seq = .wait → exec .step s = .next t →
    t = { s with wake := t.wake, seq := t.seq }) ∧
  -- STEP POST + DISPATCH
  ∀ s t : State, s.seq = .post → exec .step s = .next t →
    t = { s with
      rxLen := t.rxLen, rxbuf := t.rxbuf, pendCnt := t.pendCnt, pendTo := t.pendTo,
      linkState := t.linkState, ind := t.ind, seq := t.seq, rftx := t.rftx,
      outputs := t.outputs } ∧
    (∀ a, (∀ flen, s.sends flen → flen < a) → t.byteAt .rftx a = s.byteAt .rftx a) ∧
    ∀ a, (∀ flen, s.sends flen → s.rxLen - flen ≤ a) → t.byteAt .rxbuf a = s.byteAt .rxbuf a

/-- Each operation only adds to what has been emitted, reports at most one error, and only errors of
its own kinds. Derived from 60_exceptions.md sections 1 and 3; the history itself is the model's
(log 4). -/
def Obligations.OperationsReportAtMostOneErrorOfTheirOwn : Prop :=
  ∀ (i : Instr) (s t : State), exec i s = .next t →
    s.outputs <+: t.outputs ∧
    ((emittedBetween s t).filter
      (fun w => match w with | .report _ => true | .command _ _ => false)).length ≤ 1 ∧
    ∀ w, .report w ∈ emittedBetween s t → ∃ e info, w = errorWord e info ∧
      ((e = .receiveBufferOverflow ∧ i.context = .handler ∧ i = .rxb info) ∨
        (e = .malformedFrame ∧ i = .step ∧ s.seq = .post) ∨
        (e = .radioIdleTimeout ∧ i = .step ∧ s.seq = .poll) ∨
        (i = .pkt ∧ s.linkState = .listening ∧
          (e = .transmitBufferOverflow ∨ e = .radioStateMismatch ∨ e = .shortPacket ∨
            e = .crcFailure ∨ e = .oversizePacket)))

/-- A quiescent block's step changes nothing. Derived from 42_link_state_machine.md section 6. -/
def Obligations.QuiescentBlockStaysAsItIs : Prop :=
  ∀ s : State, s.cfg.wellFormed = true → s.quiescent → step s = .next s

/-- The drainer and the main loop touch disjoint state: a `TXD` and a `STEP` in either order leave
the same state, but for the order in which their words were emitted, and each emits the same words. Derived from 10_state.md
section 7 and 20_memory.md section 5. -/
def Obligations.TxdAndStepCommute : Prop :=
  ∀ s a b : State, s.Inv → exec .txd s = .next a → exec .step a = .next b →
    ∃ c d, exec .step s = .next c ∧ exec .txd c = .next d ∧
      { d with outputs := [] } = { b with outputs := [] } ∧
      emittedBetween c d = emittedBetween s a ∧ emittedBetween s c = emittedBetween a b
end

