-- ==== Sys2Proof/Laws/State.lean ====
section
/-! SUPPORT. One lemma per field of State for each shared update of it, so that no proof unfolds a
record update, and the lemmas of `finish` and of the bind of `Except`. -/

namespace Sys2Proof.Machine

theorem bind_eq_ok {ε α β : Type} {x : Except ε α} {f : α → Except ε β} {r : β} :
    (x >>= f) = .ok r ↔ ∃ a, x = .ok a ∧ f a = .ok r := by
  cases x with
  | error e => simp [bind, Except.bind]
  | ok a => simp [bind, Except.bind]

@[simp] theorem ok_bind {ε α β : Type} (a : α) (f : α → Except ε β) :
    ((Except.ok a : Except ε α) >>= f) = f a := rfl

@[simp] theorem error_bind {ε α β : Type} (e : ε) (f : α → Except ε β) :
    ((Except.error e : Except ε α) >>= f) = .error e := rfl

@[simp] theorem pure_eq_ok {ε α : Type} (a : α) : (pure a : Except ε α) = .ok a := rfl

@[simp] theorem finish_ok (s : State) : finish (.ok s) = .next s := rfl

theorem finish_eq_next {x : Except Fault State} {t : State} : finish x = .next t ↔ x = .ok t := by
  cases x <;> simp [finish]

@[simp] theorem emit_rxLen (s : State) (c : Command) :
    (emit s c).rxLen = s.rxLen := rfl
@[simp] theorem emit_txLen (s : State) (c : Command) :
    (emit s c).txLen = s.txLen := rfl
@[simp] theorem emit_txRd (s : State) (c : Command) :
    (emit s c).txRd = s.txRd := rfl
@[simp] theorem emit_rfrxLen (s : State) (c : Command) :
    (emit s c).rfrxLen = s.rfrxLen := rfl
@[simp] theorem emit_pendCnt (s : State) (c : Command) :
    (emit s c).pendCnt = s.pendCnt := rfl
@[simp] theorem emit_pendTo (s : State) (c : Command) :
    (emit s c).pendTo = s.pendTo := rfl
@[simp] theorem emit_tmrArmed (s : State) (c : Command) :
    (emit s c).tmrArmed = s.tmrArmed := rfl
@[simp] theorem emit_wake (s : State) (c : Command) :
    (emit s c).wake = s.wake := rfl
@[simp] theorem emit_linkState (s : State) (c : Command) :
    (emit s c).linkState = s.linkState := rfl
@[simp] theorem emit_linkErr (s : State) (c : Command) :
    (emit s c).linkErr = s.linkErr := rfl
@[simp] theorem emit_txActive (s : State) (c : Command) :
    (emit s c).txActive = s.txActive := rfl
@[simp] theorem emit_ind (s : State) (c : Command) :
    (emit s c).ind = s.ind := rfl
@[simp] theorem emit_seq (s : State) (c : Command) :
    (emit s c).seq = s.seq := rfl
@[simp] theorem emit_pollK (s : State) (c : Command) :
    (emit s c).pollK = s.pollK := rfl
@[simp] theorem emit_rxbuf (s : State) (c : Command) :
    (emit s c).rxbuf = s.rxbuf := rfl
@[simp] theorem emit_txbuf (s : State) (c : Command) :
    (emit s c).txbuf = s.txbuf := rfl
@[simp] theorem emit_rftx (s : State) (c : Command) :
    (emit s c).rftx = s.rftx := rfl
@[simp] theorem emit_rfrx (s : State) (c : Command) :
    (emit s c).rfrx = s.rfrx := rfl
@[simp] theorem emit_cfg (s : State) (c : Command) :
    (emit s c).cfg = s.cfg := rfl
@[simp] theorem emit_inputs (s : State) (c : Command) :
    (emit s c).inputs = s.inputs := rfl
@[simp] theorem emit_responses (s : State) (c : Command) :
    (emit s c).responses = s.responses := rfl
@[simp] theorem emit_freeIdx (s : State) (c : Command) :
    (emit s c).freeIdx = s.freeIdx := rfl
@[simp] theorem emit_outputs (s : State) (c : Command) :
    (emit s c).outputs = s.outputs ++ [commandOut c] := rfl

@[simp] theorem raise_rxLen (s : State) (e : ErrorKind) (b : Byte) :
    (raise s e b).rxLen = s.rxLen := rfl
@[simp] theorem raise_txLen (s : State) (e : ErrorKind) (b : Byte) :
    (raise s e b).txLen = s.txLen := rfl
@[simp] theorem raise_txRd (s : State) (e : ErrorKind) (b : Byte) :
    (raise s e b).txRd = s.txRd := rfl
@[simp] theorem raise_rfrxLen (s : State) (e : ErrorKind) (b : Byte) :
    (raise s e b).rfrxLen = s.rfrxLen := rfl
@[simp] theorem raise_pendCnt (s : State) (e : ErrorKind) (b : Byte) :
    (raise s e b).pendCnt = s.pendCnt := rfl
@[simp] theorem raise_pendTo (s : State) (e : ErrorKind) (b : Byte) :
    (raise s e b).pendTo = s.pendTo := rfl
@[simp] theorem raise_tmrArmed (s : State) (e : ErrorKind) (b : Byte) :
    (raise s e b).tmrArmed = s.tmrArmed := rfl
@[simp] theorem raise_wake (s : State) (e : ErrorKind) (b : Byte) :
    (raise s e b).wake = s.wake := rfl
@[simp] theorem raise_linkState (s : State) (e : ErrorKind) (b : Byte) :
    (raise s e b).linkState = s.linkState := rfl
@[simp] theorem raise_linkErr (s : State) (e : ErrorKind) (b : Byte) :
    (raise s e b).linkErr = s.linkErr := rfl
@[simp] theorem raise_txActive (s : State) (e : ErrorKind) (b : Byte) :
    (raise s e b).txActive = s.txActive := rfl
@[simp] theorem raise_ind (s : State) (e : ErrorKind) (b : Byte) :
    (raise s e b).ind = s.ind := rfl
@[simp] theorem raise_seq (s : State) (e : ErrorKind) (b : Byte) :
    (raise s e b).seq = s.seq := rfl
@[simp] theorem raise_pollK (s : State) (e : ErrorKind) (b : Byte) :
    (raise s e b).pollK = s.pollK := rfl
@[simp] theorem raise_rxbuf (s : State) (e : ErrorKind) (b : Byte) :
    (raise s e b).rxbuf = s.rxbuf := rfl
@[simp] theorem raise_txbuf (s : State) (e : ErrorKind) (b : Byte) :
    (raise s e b).txbuf = s.txbuf := rfl
@[simp] theorem raise_rftx (s : State) (e : ErrorKind) (b : Byte) :
    (raise s e b).rftx = s.rftx := rfl
@[simp] theorem raise_rfrx (s : State) (e : ErrorKind) (b : Byte) :
    (raise s e b).rfrx = s.rfrx := rfl
@[simp] theorem raise_cfg (s : State) (e : ErrorKind) (b : Byte) :
    (raise s e b).cfg = s.cfg := rfl
@[simp] theorem raise_inputs (s : State) (e : ErrorKind) (b : Byte) :
    (raise s e b).inputs = s.inputs := rfl
@[simp] theorem raise_responses (s : State) (e : ErrorKind) (b : Byte) :
    (raise s e b).responses = s.responses := rfl
@[simp] theorem raise_freeIdx (s : State) (e : ErrorKind) (b : Byte) :
    (raise s e b).freeIdx = s.freeIdx := rfl
@[simp] theorem raise_outputs (s : State) (e : ErrorKind) (b : Byte) :
    (raise s e b).outputs = s.outputs ++ [errorOut e b] := rfl

@[simp] theorem setMem_rxLen (s : State) (b : Buf) (m : Memory) :
    (s.setMem b m).rxLen = s.rxLen := by cases b <;> rfl
@[simp] theorem setMem_txLen (s : State) (b : Buf) (m : Memory) :
    (s.setMem b m).txLen = s.txLen := by cases b <;> rfl
@[simp] theorem setMem_txRd (s : State) (b : Buf) (m : Memory) :
    (s.setMem b m).txRd = s.txRd := by cases b <;> rfl
@[simp] theorem setMem_rfrxLen (s : State) (b : Buf) (m : Memory) :
    (s.setMem b m).rfrxLen = s.rfrxLen := by cases b <;> rfl
@[simp] theorem setMem_pendCnt (s : State) (b : Buf) (m : Memory) :
    (s.setMem b m).pendCnt = s.pendCnt := by cases b <;> rfl
@[simp] theorem setMem_pendTo (s : State) (b : Buf) (m : Memory) :
    (s.setMem b m).pendTo = s.pendTo := by cases b <;> rfl
@[simp] theorem setMem_tmrArmed (s : State) (b : Buf) (m : Memory) :
    (s.setMem b m).tmrArmed = s.tmrArmed := by cases b <;> rfl
@[simp] theorem setMem_wake (s : State) (b : Buf) (m : Memory) :
    (s.setMem b m).wake = s.wake := by cases b <;> rfl
@[simp] theorem setMem_linkState (s : State) (b : Buf) (m : Memory) :
    (s.setMem b m).linkState = s.linkState := by cases b <;> rfl
@[simp] theorem setMem_linkErr (s : State) (b : Buf) (m : Memory) :
    (s.setMem b m).linkErr = s.linkErr := by cases b <;> rfl
@[simp] theorem setMem_txActive (s : State) (b : Buf) (m : Memory) :
    (s.setMem b m).txActive = s.txActive := by cases b <;> rfl
@[simp] theorem setMem_ind (s : State) (b : Buf) (m : Memory) :
    (s.setMem b m).ind = s.ind := by cases b <;> rfl
@[simp] theorem setMem_seq (s : State) (b : Buf) (m : Memory) :
    (s.setMem b m).seq = s.seq := by cases b <;> rfl
@[simp] theorem setMem_pollK (s : State) (b : Buf) (m : Memory) :
    (s.setMem b m).pollK = s.pollK := by cases b <;> rfl
@[simp] theorem setMem_cfg (s : State) (b : Buf) (m : Memory) :
    (s.setMem b m).cfg = s.cfg := by cases b <;> rfl
@[simp] theorem setMem_inputs (s : State) (b : Buf) (m : Memory) :
    (s.setMem b m).inputs = s.inputs := by cases b <;> rfl
@[simp] theorem setMem_responses (s : State) (b : Buf) (m : Memory) :
    (s.setMem b m).responses = s.responses := by cases b <;> rfl
@[simp] theorem setMem_freeIdx (s : State) (b : Buf) (m : Memory) :
    (s.setMem b m).freeIdx = s.freeIdx := by cases b <;> rfl
@[simp] theorem setMem_outputs (s : State) (b : Buf) (m : Memory) :
    (s.setMem b m).outputs = s.outputs := by cases b <;> rfl

@[simp] theorem mem_setMem_same (s : State) (b : Buf) (m : Memory) : (s.setMem b m).mem b = m := by
  cases b <;> rfl

theorem mem_setMem_other (s : State) {b b' : Buf} (m : Memory) (h : b' ≠ b) :
    (s.setMem b m).mem b' = s.mem b' := by
  cases b <;> cases b' <;> first | rfl | exact absurd rfl h

@[simp] theorem setMem_setMem (s : State) (b : Buf) (m m' : Memory) :
    (s.setMem b m).setMem b m' = s.setMem b m' := by
  cases b <;> rfl

@[simp] theorem setMem_self (s : State) (b : Buf) : s.setMem b (s.mem b) = s := by
  cases b <;> rfl

@[simp] theorem emit_mem (s : State) (c : Command) (b : Buf) : (emit s c).mem b = s.mem b := by
  cases b <;> rfl

@[simp] theorem raise_mem (s : State) (e : ErrorKind) (i : Byte) (b : Buf) :
    (raise s e i).mem b = s.mem b := by
  cases b <;> rfl

@[simp] theorem emit_byteAt (s : State) (c : Command) (b : Buf) (i : Nat) :
    (emit s c).byteAt b i = s.byteAt b i := by
  cases b <;> rfl

@[simp] theorem raise_byteAt (s : State) (e : ErrorKind) (x : Byte) (b : Buf) (i : Nat) :
    (raise s e x).byteAt b i = s.byteAt b i := by
  cases b <;> rfl

/-- A buffer's bytes depend on that buffer only. -/
theorem byteAt_eq_of_mem_eq {s t : State} {b : Buf} (h : t.mem b = s.mem b) (i : Nat) :
    t.byteAt b i = s.byteAt b i := by
  simp [State.byteAt, h]

@[simp] theorem byteAt_setMem_same (s : State) (b : Buf) (m : Memory) (i : Nat) :
    (s.setMem b m).byteAt b i = Memory.read m i := by
  simp [State.byteAt]

theorem byteAt_setMem_other (s : State) {b b' : Buf} (m : Memory) (h : b' ≠ b) (i : Nat) :
    (s.setMem b m).byteAt b' i = s.byteAt b' i := by
  simp [State.byteAt, mem_setMem_other s m h]

@[simp] theorem dropResponse_rxLen (s : State) :
    (dropResponse s).rxLen = s.rxLen := by
  unfold dropResponse; split <;> rfl
@[simp] theorem dropResponse_txLen (s : State) :
    (dropResponse s).txLen = s.txLen := by
  unfold dropResponse; split <;> rfl
@[simp] theorem dropResponse_txRd (s : State) :
    (dropResponse s).txRd = s.txRd := by
  unfold dropResponse; split <;> rfl
@[simp] theorem dropResponse_rfrxLen (s : State) :
    (dropResponse s).rfrxLen = s.rfrxLen := by
  unfold dropResponse; split <;> rfl
@[simp] theorem dropResponse_pendCnt (s : State) :
    (dropResponse s).pendCnt = s.pendCnt := by
  unfold dropResponse; split <;> rfl
@[simp] theorem dropResponse_pendTo (s : State) :
    (dropResponse s).pendTo = s.pendTo := by
  unfold dropResponse; split <;> rfl
@[simp] theorem dropResponse_tmrArmed (s : State) :
    (dropResponse s).tmrArmed = s.tmrArmed := by
  unfold dropResponse; split <;> rfl
@[simp] theorem dropResponse_wake (s : State) :
    (dropResponse s).wake = s.wake := by
  unfold dropResponse; split <;> rfl
@[simp] theorem dropResponse_linkState (s : State) :
    (dropResponse s).linkState = s.linkState := by
  unfold dropResponse; split <;> rfl
@[simp] theorem dropResponse_linkErr (s : State) :
    (dropResponse s).linkErr = s.linkErr := by
  unfold dropResponse; split <;> rfl
@[simp] theorem dropResponse_txActive (s : State) :
    (dropResponse s).txActive = s.txActive := by
  unfold dropResponse; split <;> rfl
@[simp] theorem dropResponse_ind (s : State) :
    (dropResponse s).ind = s.ind := by
  unfold dropResponse; split <;> rfl
@[simp] theorem dropResponse_seq (s : State) :
    (dropResponse s).seq = s.seq := by
  unfold dropResponse; split <;> rfl
@[simp] theorem dropResponse_pollK (s : State) :
    (dropResponse s).pollK = s.pollK := by
  unfold dropResponse; split <;> rfl
@[simp] theorem dropResponse_rxbuf (s : State) :
    (dropResponse s).rxbuf = s.rxbuf := by
  unfold dropResponse; split <;> rfl
@[simp] theorem dropResponse_txbuf (s : State) :
    (dropResponse s).txbuf = s.txbuf := by
  unfold dropResponse; split <;> rfl
@[simp] theorem dropResponse_rftx (s : State) :
    (dropResponse s).rftx = s.rftx := by
  unfold dropResponse; split <;> rfl
@[simp] theorem dropResponse_rfrx (s : State) :
    (dropResponse s).rfrx = s.rfrx := by
  unfold dropResponse; split <;> rfl
@[simp] theorem dropResponse_cfg (s : State) :
    (dropResponse s).cfg = s.cfg := by
  unfold dropResponse; split <;> rfl
@[simp] theorem dropResponse_inputs (s : State) :
    (dropResponse s).inputs = s.inputs := by
  unfold dropResponse; split <;> rfl
@[simp] theorem dropResponse_outputs (s : State) :
    (dropResponse s).outputs = s.outputs := by
  unfold dropResponse; split <;> rfl

@[simp] theorem dropResponse_mem (s : State) (b : Buf) : (dropResponse s).mem b = s.mem b := by
  unfold dropResponse; split <;> cases b <;> rfl

/-- Taking response bytes changes the response fields only. -/
theorem dropResponses_eq (s : State) (n : Nat) :
    ∃ r k, dropResponses s n = { s with responses := r, freeIdx := k } := by
  induction n generalizing s with
  | zero => exact ⟨s.responses, s.freeIdx, rfl⟩
  | succ n ih =>
    obtain ⟨r, k, h⟩ := ih (dropResponse s)
    refine ⟨r, k, ?_⟩
    rw [dropResponses, h]
    unfold dropResponse
    split <;> rfl

end Sys2Proof.Machine
end

