-- ==== Sys2Proof/Laws/Buffers.lean ====
section
/-! SUPPORT. One lemma for each access to a buffer: when it succeeds, and what it then does. -/

namespace Sys2Proof.Machine

theorem memRead_eq_ok {s : State} {b : Buf} {i : Nat} {v : Byte} :
    memRead s b i = .ok v ↔ i < Params.cap s.cfg b ∧ s.byteAt b i = some v := by
  unfold memRead
  split
  · cases h : s.byteAt b i <;> simp [*]
  · simp [*]

/-- A written byte inside the buffer can be read. -/
theorem memRead_written {s : State} {b : Buf} {i : Nat} (hc : i < Params.cap s.cfg b)
    (hw : (s.byteAt b i).isSome = true) : ∃ v, memRead s b i = .ok v ∧ s.byteAt b i = some v := by
  obtain ⟨v, hv⟩ := Option.isSome_iff_exists.1 hw
  exact ⟨v, memRead_eq_ok.2 ⟨hc, hv⟩, hv⟩

theorem memWrite_eq_ok {s t : State} {b : Buf} {i : Nat} {v : Byte} :
    memWrite s b i v = .ok t ↔
      i < Params.cap s.cfg b ∧ t = s.setMem b (Memory.write (s.mem b) i v) := by
  unfold memWrite
  split <;> simp [*, eq_comm]

/-- What a bulk write of a buffer leaves: another memory for that buffer, in canonical form if the
old one was, changed at the `n` indices from `i` only. -/
structure BufWritten (s t : State) (b : Buf) (i n : Nat) : Prop where
  eq : t = s.setMem b (t.mem b)
  wf : Memory.wf (s.mem b) = true → Memory.wf (t.mem b) = true
  frame : ∀ a, a < i ∨ i + n ≤ a → t.byteAt b a = s.byteAt b a
  inside : n = 0 ∨ i + n ≤ Params.cap s.cfg b

theorem BufWritten.refl (s : State) (b : Buf) (i : Nat) : BufWritten s s b i 0 :=
  ⟨by simp, id, fun _ _ => rfl, .inl rfl⟩

theorem BufWritten.other {s t : State} {b : Buf} {i n : Nat} (h : BufWritten s t b i n) {b' : Buf}
    (hb : b' ≠ b) (a : Nat) : t.byteAt b' a = s.byteAt b' a := by
  rw [h.eq, byteAt_setMem_other s _ hb]

theorem BufWritten.one {s : State} {b : Buf} {i : Nat} (v : Byte) (h : i < Params.cap s.cfg b) :
    BufWritten s (s.setMem b (Memory.write (s.mem b) i v)) b i 1 := by
  refine ⟨by simp, fun hw => by simpa using write_wf i v hw, fun a ha => ?_, .inr h⟩
  rw [byteAt_setMem_same, read_write_other _ _ (by omega)]
  rfl

/-- A write at `i` followed by a bulk write from `i + 1`. -/
theorem BufWritten.cons {s t : State} {b : Buf} {i n : Nat} {v : Byte}
    (hi : i < Params.cap s.cfg b)
    (h : BufWritten (s.setMem b (Memory.write (s.mem b) i v)) t b (i + 1) n) :
    BufWritten s t b i (n + 1) := by
  have h1 := BufWritten.one v hi
  refine ⟨?_, fun hw => h.wf (h1.wf hw), fun a ha => ?_, .inr ?_⟩
  · have := h.eq
    rwa [setMem_setMem] at this
  · rw [h.frame a (by omega), h1.frame a (by omega)]
  · rcases h.inside with h0 | h0
    · omega
    · rw [setMem_cfg] at h0
      omega

theorem readBytes_eq_ok {s : State} {b : Buf} {i n : Nat} {bs : List Byte}
    (h : readBytes s b i n = .ok bs) : bs.length = n ∧ s.holds b i bs := by
  induction n generalizing i bs with
  | zero =>
    simp only [readBytes, Except.ok.injEq] at h
    subst h
    exact ⟨rfl, by simp [State.holds]⟩
  | succ n ih =>
    simp only [readBytes, bind_eq_ok, pure_eq_ok, Except.ok.injEq] at h
    obtain ⟨v, hv, vs, hvs, rfl⟩ := h
    obtain ⟨hl, hh⟩ := ih hvs
    refine ⟨by simp [hl], fun j hj => ?_⟩
    cases j with
    | zero => simpa using (memRead_eq_ok.1 hv).2
    | succ j =>
      have := hh j (by simpa using hj)
      simpa [Nat.add_assoc, Nat.add_comm 1] using this

/-- Written bytes inside the buffer can be read in bulk. -/
theorem readBytes_written {s : State} {b : Buf} {i n : Nat} (hc : i + n ≤ Params.cap s.cfg b)
    (hw : ∀ j < n, (s.byteAt b (i + j)).isSome = true) : ∃ bs, readBytes s b i n = .ok bs := by
  induction n generalizing i with
  | zero => exact ⟨[], rfl⟩
  | succ n ih =>
    obtain ⟨v, hv, -⟩ := memRead_written (s := s) (b := b) (i := i) (by omega)
      (by simpa using hw 0 (by omega))
    obtain ⟨vs, hvs⟩ := ih (i := i + 1) (by omega) fun j hj => by
      have := hw (j + 1) (by omega)
      rwa [show i + 1 + j = i + (j + 1) by omega]
    exact ⟨v :: vs, by simp [readBytes, hv, hvs]⟩

/-- The list a buffer holds at an index is unique for its length. -/
theorem holds_unique {s : State} {b : Buf} {i : Nat} {xs ys : List Byte} (hx : s.holds b i xs)
    (hy : s.holds b i ys) (h : xs.length = ys.length) : xs = ys := by
  apply List.ext_getElem? fun j => ?_
  by_cases hj : j < xs.length
  · rw [← hx j hj, ← hy j (h ▸ hj)]
  · rw [List.getElem?_eq_none (by omega), List.getElem?_eq_none (by omega)]

theorem writeBytes_eq_ok {s t : State} {b : Buf} {i : Nat} {bs : List Byte}
    (h : writeBytes s b i bs = .ok t) : BufWritten s t b i bs.length ∧ t.holds b i bs := by
  induction bs generalizing s i with
  | nil =>
    simp only [writeBytes, Except.ok.injEq] at h
    subst h
    exact ⟨BufWritten.refl s b i, by simp [State.holds]⟩
  | cons v vs ih =>
    simp only [writeBytes, bind_eq_ok] at h
    obtain ⟨s1, hs1, h⟩ := h
    obtain ⟨hi, rfl⟩ := memWrite_eq_ok.1 hs1
    obtain ⟨hw, hh⟩ := ih h
    refine ⟨BufWritten.cons hi hw, fun j hj => ?_⟩
    cases j with
    | zero =>
      rw [Nat.add_zero, hw.frame i (by omega), byteAt_setMem_same, read_write_same]
      rfl
    | succ j =>
      have := hh j (by simpa using hj)
      rw [show i + (j + 1) = i + 1 + j by omega, this]
      rfl

/-- A bulk write inside the buffer succeeds. -/
theorem writeBytes_inside {s : State} {b : Buf} {i : Nat} {bs : List Byte}
    (hc : i + bs.length ≤ Params.cap s.cfg b) : ∃ t, writeBytes s b i bs = .ok t := by
  induction bs generalizing s i with
  | nil => exact ⟨s, rfl⟩
  | cons v vs ih =>
    simp only [List.length_cons] at hc
    have hi : i < Params.cap s.cfg b := by omega
    obtain ⟨t, ht⟩ := ih (s := s.setMem b (Memory.write (s.mem b) i v)) (i := i + 1)
      (by rw [setMem_cfg]; omega)
    exact ⟨t, by simp only [writeBytes, memWrite, hi, if_true, ok_bind, ht]⟩

/-- What a copy does, in a buffer other than its source or below its source in the same one: the
bytes arrive in order, and they had all been written. -/
theorem copyBytes_eq_ok {s t : State} {src dst : Buf} {si di n : Nat}
    (h : copyBytes s src si dst di n = .ok t) (ho : src ≠ dst ∨ di ≤ si) :
    BufWritten s t dst di n ∧
      ∀ j < n, t.byteAt dst (di + j) = s.byteAt src (si + j) ∧
        (s.byteAt src (si + j)).isSome = true := by
  induction n generalizing s si di with
  | zero =>
    simp only [copyBytes, Except.ok.injEq] at h
    subst h
    exact ⟨BufWritten.refl s dst di, by simp⟩
  | succ n ih =>
    simp only [copyBytes, bind_eq_ok] at h
    obtain ⟨v, hv, s1, hs1, h⟩ := h
    obtain ⟨hi, rfl⟩ := memWrite_eq_ok.1 hs1
    obtain ⟨hw, hc⟩ := ih h (ho.imp_right fun h => by omega)
    have hv' := (memRead_eq_ok.1 hv).2
    refine ⟨BufWritten.cons hi hw, fun j hj => ?_⟩
    cases j with
    | zero =>
      rw [Nat.add_zero, Nat.add_zero, hw.frame di (by omega), byteAt_setMem_same, read_write_same,
        hv']
      exact ⟨rfl, rfl⟩
    | succ j =>
      have hsame : (s.setMem dst (Memory.write (s.mem dst) di v)).byteAt src (si + 1 + j) =
          s.byteAt src (si + 1 + j) := by
        by_cases hb : src = dst
        · subst hb
          have := ho.resolve_left (by simp)
          rw [byteAt_setMem_same, read_write_other _ _ (by omega)]
          rfl
        · exact byteAt_setMem_other s _ hb _
      have := hc j (by omega)
      rw [hsame] at this
      rw [show di + (j + 1) = di + 1 + j by omega, show si + (j + 1) = si + 1 + j by omega]
      exact this

/-- A copy of written bytes between places inside their buffers succeeds. -/
theorem copyBytes_inside {s : State} {src dst : Buf} {si di n : Nat}
    (ho : src ≠ dst ∨ di ≤ si) (hs : si + n ≤ Params.cap s.cfg src)
    (hd : di + n ≤ Params.cap s.cfg dst)
    (hw : ∀ j < n, (s.byteAt src (si + j)).isSome = true) :
    ∃ t, copyBytes s src si dst di n = .ok t := by
  induction n generalizing s si di with
  | zero => exact ⟨s, rfl⟩
  | succ n ih =>
    obtain ⟨v, hv, -⟩ := memRead_written (s := s) (b := src) (i := si) (by omega)
      (by simpa using hw 0 (by omega))
    have hi : di < Params.cap s.cfg dst := by omega
    obtain ⟨t, ht⟩ := ih (s := s.setMem dst (Memory.write (s.mem dst) di v)) (si := si + 1)
      (di := di + 1) (ho.imp_right fun h => by omega) (by rw [setMem_cfg]; omega) (by rw [setMem_cfg]; omega)
      fun j hj => by
        have := hw (j + 1) (by omega)
        rw [show si + (j + 1) = si + 1 + j by omega] at this
        by_cases hb : src = dst
        · subst hb
          have := ho.resolve_left (by simp)
          rw [byteAt_setMem_same, read_write_other _ _ (by omega)]
          assumption
        · rw [byteAt_setMem_other s _ hb]
          exact this
    exact ⟨t, by simp only [copyBytes, hv, ok_bind, memWrite, hi, if_true, ht]⟩

/-- The delimiter search: it finds the least delimiter of the window, and fails to find one only
where there is none (41_outbound_dispatcher.md R145). -/
theorem findDelim_eq_ok {s : State} {i w : Nat} {r : Option Nat} (h : findDelim s i w = .ok r) :
    match r with
    | none => ∀ j, i ≤ j → j < i + w → s.byteAt .rxbuf j ≠ some Config.delim
    | some k => i ≤ k ∧ k < i + w ∧ s.byteAt .rxbuf k = some Config.delim ∧
        ∀ j, i ≤ j → j < k → s.byteAt .rxbuf j ≠ some Config.delim := by
  induction w generalizing i with
  | zero =>
    simp only [findDelim, Except.ok.injEq] at h
    subst h
    exact fun j h1 h2 => absurd h2 (by omega)
  | succ w ih =>
    simp only [findDelim, bind_eq_ok] at h
    obtain ⟨v, hv, h⟩ := h
    have hv' := (memRead_eq_ok.1 hv).2
    split at h
    · simp only [pure_eq_ok, Except.ok.injEq] at h
      subst h
      subst v
      exact ⟨Nat.le_refl i, by omega, hv', fun j h1 h2 => absurd h2 (by omega)⟩
    · rename_i hne
      have hi : s.byteAt .rxbuf i ≠ some Config.delim := by
        rw [hv']
        simpa using hne
      have := ih h
      cases r with
      | none =>
        intro j h1 h2
        by_cases hj : j = i
        · subst hj; exact hi
        · exact this j (by omega) (by omega)
      | some k =>
        obtain ⟨h1, h2, h3, h4⟩ := this
        refine ⟨by omega, by omega, h3, fun j h5 h6 => ?_⟩
        by_cases hj : j = i
        · subst hj; exact hi
        · exact h4 j (by omega) h6

/-- The delimiter search over written bytes succeeds. -/
theorem findDelim_written {s : State} {i w : Nat} (hc : i + w ≤ Params.cap s.cfg .rxbuf)
    (hw : ∀ j < w, (s.byteAt .rxbuf (i + j)).isSome = true) : ∃ r, findDelim s i w = .ok r := by
  induction w generalizing i with
  | zero => exact ⟨none, rfl⟩
  | succ w ih =>
    obtain ⟨v, hv, -⟩ := memRead_written (s := s) (b := .rxbuf) (i := i) (by omega)
      (by simpa using hw 0 (by omega))
    by_cases hd : v = Config.delim
    · exact ⟨some i, by simp [findDelim, hv, hd]⟩
    · obtain ⟨r, hr⟩ := ih (i := i + 1) (by omega) fun j hj => by
        have := hw (j + 1) (by omega)
        rwa [show i + 1 + j = i + (j + 1) by omega]
      exact ⟨r, by simp [findDelim, hv, hd, hr]⟩

/-- Every buffer operation keeps the canonical form of every buffer: a write of one byte, a bulk
write and a copy are `BufWritten`. -/
theorem BufWritten.keeps_wf {s t : State} {b : Buf} {i n : Nat} (h : BufWritten s t b i n)
    {b' : Buf} (hw : Memory.wf (s.mem b') = true) : Memory.wf (t.mem b') = true := by
  by_cases hb : b' = b
  · subst hb
    exact h.wf hw
  · rw [h.eq, mem_setMem_other s _ hb]
    exact hw

end Sys2Proof.Machine
end

