-- ==== Sys2Proof/Laws/Dispatcher.lean ====
section
/-! SUPPORT. What the parts of `DISPATCH` do, said once. -/

namespace Sys2Proof.Machine

/-- The frame length and the timeout indicator after steps 1 and 2. -/
theorem frameLength_eq_ok {s t : State} {r : Option Nat} (h : frameLength s = .ok (r, t)) :
    t = { s with pendTo := false } ∧
      (∀ f, r = some f → s.frameLen f) ∧
      (r = none → s.pendTo = false ∧ s.noDelim (min s.pendCnt s.rxLen)) := by
  unfold frameLength at h
  split at h
  · rename_i hp
    simp only [pure_eq_ok, Except.ok.injEq, Prod.mk.injEq] at h
    obtain ⟨rfl, rfl⟩ := h
    refine ⟨rfl, fun f hf => .inl ⟨hp, ?_⟩, by simp⟩
    simpa using hf.symm
  · rename_i hp
    have hp' : s.pendTo = false := by simpa using hp
    simp only [bind_eq_ok, pure_eq_ok, Except.ok.injEq, Prod.mk.injEq] at h
    obtain ⟨found, hf, rfl, rfl⟩ := h
    have hd := findDelim_eq_ok hf
    refine ⟨?_, fun f hff => .inr ⟨hp', ?_⟩, fun hr => ⟨hp', ?_⟩⟩
    · cases s; simp only at hp'; subst hp'; rfl
    · cases found with
      | none => simp at hff
      | some k =>
        obtain ⟨-, h2, h3, h4⟩ := hd
        simp only [Option.map_some, Option.some.injEq] at hff
        refine ⟨k, ⟨?_, h3, fun j hj => h4 j (Nat.zero_le j) hj⟩, hff.symm⟩
        simpa [scanWindow] using h2
    · cases found with
      | none => exact fun j hj => hd j (Nat.zero_le j) (by simpa [scanWindow] using hj)
      | some k => simp at hr

/-- Steps 1 and 2 succeed where the valid bytes have been written. -/
theorem frameLength_written {s : State} (hc : s.rxLen ≤ s.cfg.c) (hw : s.written .rxbuf s.rxLen) :
    ∃ r t, frameLength s = .ok (r, t) := by
  unfold frameLength
  split
  · exact ⟨_, _, rfl⟩
  · have hs : scanWindow s ≤ s.rxLen := Nat.min_le_right _ _
    obtain ⟨r, hr⟩ := findDelim_written (s := s) (i := 0) (w := scanWindow s)
      (by simp only [Params.cap]; omega)
      fun j hj => by simpa using hw j (by omega)
    exact ⟨_, _, by rw [hr]; rfl⟩

/-- Which frame length a state has is a matter of fact: there is at most one. -/
theorem frameLen_unique {s : State} {f g : Nat} (hf : s.frameLen f) (hg : s.frameLen g) : f = g := by
  rcases hf with ⟨hp, rfl⟩ | ⟨hp, i, ⟨hi, hi', hi''⟩, rfl⟩
  · rcases hg with ⟨-, rfl⟩ | ⟨hp', -⟩
    · rfl
    · simp [hp] at hp'
  · rcases hg with ⟨hp', -⟩ | ⟨-, j, ⟨hj, hj', hj''⟩, rfl⟩
    · simp [hp] at hp'
    · rcases Nat.lt_trichotomy i j with h | h | h
      · exact absurd hi' (hj'' i h)
      · rw [h]
      · exact absurd hj' (hi'' j h)

/-- A frame length found by search is none where no delimiter is in the window. -/
theorem frameLen_not_noDelim {s : State} {f : Nat} (hf : s.frameLen f) (hp : s.pendTo = false) :
    ¬ s.noDelim (min s.pendCnt s.rxLen) := by
  rcases hf with ⟨h, -⟩ | ⟨-, i, ⟨h1, h2, -⟩, -⟩
  · simp [hp] at h
  · exact fun h => h i h1 h2

theorem frameLen_le {s : State} {f : Nat} (h : s.frameLen f) : f ≤ s.rxLen := by
  rcases h with ⟨-, rfl⟩ | ⟨-, i, ⟨h, -⟩, rfl⟩ <;> omega

/-- Step 4. -/
theorem buildFrame_eq_ok {s t : State} {flen : Nat} (h : buildFrame s flen = .ok t) :
    BufWritten s t .rftx 0 (flen + 1) ∧ t.byteAt .rftx 0 = some (BitVec.ofNat 8 flen) ∧
      ∀ j < flen, t.byteAt .rftx (j + 1) = s.byteAt .rxbuf j ∧
        (s.byteAt .rxbuf j).isSome = true := by
  simp only [buildFrame, bind_eq_ok] at h
  obtain ⟨s1, hs1, h⟩ := h
  obtain ⟨h0, rfl⟩ := memWrite_eq_ok.1 hs1
  obtain ⟨hw, hc⟩ := copyBytes_eq_ok h (.inl (by simp))
  refine ⟨BufWritten.cons h0 hw, ?_, fun j hj => ?_⟩
  · rw [hw.frame 0 (by omega), byteAt_setMem_same, read_write_same]
  · have := hc j hj
    rwa [byteAt_setMem_other s _ (by simp), Nat.zero_add, Nat.add_comm] at this

theorem buildFrame_written {s : State} {flen : Nat} (hm : flen ≤ s.cfg.maxPay)
    (hc : flen ≤ s.cfg.c) (hw : s.written .rxbuf flen) : ∃ t, buildFrame s flen = .ok t := by
  have h0 : 0 < Params.cap s.cfg .rftx := by simp [Params.cap, Params.rfTxCap]
  obtain ⟨t, ht⟩ := copyBytes_inside
    (s := s.setMem .rftx (Memory.write (s.mem .rftx) 0 (BitVec.ofNat 8 flen)))
    (src := .rxbuf) (si := 0) (dst := .rftx) (di := 1) (n := flen) (.inl (by simp))
    (by simp only [setMem_cfg, Params.cap]; omega)
    (by simp only [setMem_cfg, Params.cap, Params.rfTxCap]; omega)
    (fun j hj => by
      rw [byteAt_setMem_other s _ (by simp), Nat.zero_add]
      exact hw j hj)
  exact ⟨t, by simp only [buildFrame, memWrite, h0, if_true, ok_bind, ht]⟩

/-- Step 5: the remaining bytes move to the front in order, and the marker is cleared only where
nothing remains (41_outbound_dispatcher.md R147, R150). -/
theorem compactRx_eq_ok {s t : State} {flen : Nat} (h : compactRx s flen = .ok t) :
    t = { s with
        rxbuf := t.rxbuf, rxLen := s.rxLen - flen,
        pendCnt := if flen < s.rxLen then s.pendCnt else 0,
        pendTo := if flen < s.rxLen then s.pendTo else false } ∧
      (∀ j < s.rxLen - flen, t.byteAt .rxbuf j = s.byteAt .rxbuf (flen + j)) ∧
      (∀ a, s.rxLen - flen ≤ a → t.byteAt .rxbuf a = s.byteAt .rxbuf a) ∧
      (Memory.wf s.rxbuf = true → Memory.wf t.rxbuf = true) ∧
      (s.rxLen ≤ flen ∨ s.rxLen - flen ≤ s.cfg.c) := by
  unfold compactRx at h
  split at h
  · rename_i hlt
    simp only [bind_eq_ok, pure_eq_ok, Except.ok.injEq] at h
    obtain ⟨u, hu, rfl⟩ := h
    obtain ⟨hw, hc⟩ := copyBytes_eq_ok hu (.inr (Nat.zero_le _))
    refine ⟨?_, fun j hj => ?_, fun a ha => hw.frame a (by omega), hw.wf, ?_⟩
    · have : u = s.setMem .rxbuf u.rxbuf := hw.eq
      rw [if_pos hlt, if_pos hlt, this]
      rfl
    · have := (hc j hj).1
      rwa [Nat.zero_add] at this
    · have := hw.inside
      simp only [Params.cap] at this
      omega
  · rename_i hlt
    simp only [pure_eq_ok, Except.ok.injEq] at h
    subst h
    refine ⟨?_, fun j hj => by omega, fun a _ => rfl, id, .inl (by omega)⟩
    rw [if_neg hlt, if_neg hlt, show s.rxLen - flen = 0 by omega]

theorem compactRx_written {s : State} {flen : Nat} (hc : s.rxLen ≤ s.cfg.c)
    (hw : s.written .rxbuf s.rxLen) : ∃ t, compactRx s flen = .ok t := by
  unfold compactRx
  split
  · obtain ⟨u, hu⟩ := copyBytes_inside (s := s) (src := .rxbuf) (si := flen) (dst := .rxbuf)
      (di := 0) (n := s.rxLen - flen) (.inr (Nat.zero_le _))
      (by simp only [Params.cap]; omega) (by simp only [Params.cap]; omega)
      (fun j hj => hw _ (by omega))
    exact ⟨_, by rw [hu]; rfl⟩
  · exact ⟨_, rfl⟩

theorem stopListening_eq (s : State) : stopListening s = { s with
    linkState := if s.linkState = .listening then .idle else s.linkState,
    outputs := s.outputs ++
      (if s.linkState = .listening then [commandOut (.rstrobe .sidle)] else []) } := by
  unfold stopListening
  split <;> simp [emit, *]

/-- Step 6. -/
theorem handOff_eq_ok {s t : State} {flen : Nat} (h : handOff s flen = .ok t) :
    ∃ fr : List Byte, fr.length = flen + 1 ∧ s.holds .rftx 0 fr ∧
      t = { s with
        linkState := .transmitting, ind := true,
        outputs := s.outputs ++
          (if s.linkState = .listening then [commandOut (.rstrobe .sidle)] else []) ++
          [commandOut (.rwfifo fr), commandOut (.rstrobe .stx)] } := by
  simp only [handOff, stopListening_eq, bind_eq_ok, pure_eq_ok, Except.ok.injEq] at h
  obtain ⟨fr, hfr, rfl⟩ := h
  obtain ⟨hl, hh⟩ := readBytes_eq_ok hfr
  exact ⟨fr, hl, hh, by simp [emit]⟩

theorem handOff_written {s : State} {flen : Nat} (hm : flen ≤ s.cfg.maxPay)
    (hw : s.written .rftx (flen + 1)) : ∃ t, handOff s flen = .ok t := by
  simp only [handOff, stopListening_eq]
  obtain ⟨fr, hfr⟩ := readBytes_written
    (s := { s with
      linkState := if s.linkState = .listening then .idle else s.linkState,
      outputs := s.outputs ++
        (if s.linkState = .listening then [commandOut (.rstrobe .sidle)] else []) })
    (b := .rftx) (i := 0) (n := flen + 1)
    (by simp only [Params.cap, Params.rfTxCap]; omega)
    (fun j hj => by rw [Nat.zero_add]; exact hw j hj)
  exact ⟨_, by rw [hfr]; rfl⟩

/-- Steps 4 to 6 for a frame of `flen` bytes: the frame is the first `flen` bytes of the receive
buffer, what remains moves to the front, and the radio is handed length byte and frame. -/
theorem sendFrame_eq_ok {s t : State} {flen : Nat} (h : sendFrame s flen = .ok t) :
    ∃ frame : List Byte, frame.length = flen ∧ s.holds .rxbuf 0 frame ∧
      t = { s with
        rxbuf := t.rxbuf, rftx := t.rftx, rxLen := s.rxLen - flen,
        pendCnt := if flen < s.rxLen then s.pendCnt else 0,
        pendTo := if flen < s.rxLen then s.pendTo else false,
        linkState := .transmitting, ind := true,
        outputs := s.outputs ++ [commandOut (.srxie true)] ++
          (if s.linkState = .listening then [commandOut (.rstrobe .sidle)] else []) ++
          [commandOut (.rwfifo (BitVec.ofNat 8 flen :: frame)), commandOut (.rstrobe .stx)] } ∧
      t.holds .rftx 0 (BitVec.ofNat 8 flen :: frame) ∧
      (∀ a, flen < a → t.byteAt .rftx a = s.byteAt .rftx a) ∧
      (∀ j < s.rxLen - flen, t.byteAt .rxbuf j = s.byteAt .rxbuf (flen + j)) ∧
      (∀ a, s.rxLen - flen ≤ a → t.byteAt .rxbuf a = s.byteAt .rxbuf a) ∧
      (∀ b, Memory.wf (s.mem b) = true → Memory.wf (t.mem b) = true) ∧
      flen ≤ s.cfg.maxPay ∧ (s.rxLen ≤ flen ∨ s.rxLen - flen ≤ s.cfg.c) := by
  simp only [sendFrame, bind_eq_ok] at h
  obtain ⟨s1, hs1, s2, hs2, hs3⟩ := h
  obtain ⟨hb, hb0, hbj⟩ := buildFrame_eq_ok hs1
  obtain ⟨hc, hcm, hck, hcw, hcb⟩ := compactRx_eq_ok hs2
  obtain ⟨fr, hl, hh, ht⟩ := handOff_eq_ok hs3
  have e1 : s1 = { s with rftx := s1.rftx } := hb.eq
  have h1x : ∀ i, s1.byteAt .rxbuf i = s.byteAt .rxbuf i := hb.other (by simp)
  have h2f : ∀ i, s2.byteAt .rftx i = s1.byteAt .rftx i := fun i => by rw [hc]; rfl
  have e2 : s2 = { s with
      rftx := s1.rftx, rxbuf := s2.rxbuf, rxLen := s.rxLen - flen,
      pendCnt := if flen < s.rxLen then s.pendCnt else 0,
      pendTo := if flen < s.rxLen then s.pendTo else false } := by
    have r1 : s1.rxLen = s.rxLen := by rw [e1]
    have r2 : s1.pendCnt = s.pendCnt := by rw [e1]
    have r3 : s1.pendTo = s.pendTo := by rw [e1]
    rw [r1, r2, r3] at hc
    rw [hc, e1]
  have r1 : s1.rxLen = s.rxLen := by rw [e1]
  have r4 : s1.cfg = s.cfg := by rw [e1]
  have l2 : s2.linkState = s.linkState := by rw [e2]
  have o2 : s2.outputs = s.outputs := by rw [e2]
  simp only [r1, r4, h1x] at hcm hck hcb
  obtain ⟨frame, rfl⟩ : ∃ frame, fr = BitVec.ofNat 8 flen :: frame := by
    cases fr with
    | nil => simp at hl
    | cons x xs =>
      have := hh 0 (by simp)
      rw [Nat.zero_add, emit_byteAt, h2f, hb0] at this
      simp only [List.getElem?_cons_zero, Option.some.injEq] at this
      exact ⟨xs, by rw [this]⟩
  have hl' : frame.length = flen := by simpa using hl
  have tx : ∀ i, t.byteAt .rxbuf i = s2.byteAt .rxbuf i := fun i => by rw [ht]; rfl
  have tf : ∀ i, t.byteAt .rftx i = s1.byteAt .rftx i := fun i => by rw [← h2f, ht]; rfl
  refine ⟨frame, hl', fun j hj => ?_, ?_, fun j hj => ?_, fun a ha => ?_, fun j hj => ?_,
    fun a ha => ?_, fun b hwf => ?_, ?_, hcb⟩
  · have := hh (j + 1) (by simpa using hj)
    rw [Nat.zero_add, emit_byteAt, h2f, (hbj j (by omega)).1, List.getElem?_cons_succ] at this
    rw [Nat.zero_add, this]
  · rw [ht]
    simp only [emit_linkState, l2, emit_outputs, o2]
    rw [e2]
    rfl
  · rw [tf, ← h2f]
    exact hh j hj
  · rw [tf]
    exact hb.frame a (by omega)
  · rw [tx]
    exact hcm j hj
  · rw [tx]
    exact hck a ha
  · cases b with
    | rxbuf =>
      have : Memory.wf s1.rxbuf = true := by rw [e1]; exact hwf
      have := hcw this
      rw [ht]
      exact this
    | rftx =>
      have : Memory.wf s1.rftx = true := hb.wf hwf
      rw [ht]
      show Memory.wf s2.rftx = true
      rw [e2]
      exact this
    | txbuf =>
      rw [ht]
      show Memory.wf s2.txbuf = true
      rw [e2]
      exact hwf
    | rfrx =>
      rw [ht]
      show Memory.wf s2.rfrx = true
      rw [e2]
      exact hwf
  · have := hb.inside
    simp only [Params.cap, Params.rfTxCap] at this
    omega

/-- Steps 4 to 6 succeed for a frame of legal length whose bytes have been written. -/
theorem sendFrame_written {s : State} {flen : Nat} (hl : flen ≤ s.rxLen)
    (hm : flen ≤ s.cfg.maxPay) (hc : s.rxLen ≤ s.cfg.c) (hw : s.written .rxbuf s.rxLen) :
    ∃ t, sendFrame s flen = .ok t := by
  obtain ⟨s1, hs1⟩ := buildFrame_written hm (by omega) fun j hj => hw j (by omega)
  obtain ⟨hb, hb0, hbj⟩ := buildFrame_eq_ok hs1
  have e1 : s1 = { s with rftx := s1.rftx } := hb.eq
  have r1 : s1.rxLen = s.rxLen := by rw [e1]
  have r4 : s1.cfg = s.cfg := by rw [e1]
  obtain ⟨s2, hs2⟩ := compactRx_written (s := s1) (flen := flen) (by rw [r1, r4]; exact hc)
    (by
      intro j hj
      rw [hb.other (by simp)]
      exact hw j (by omega))
  obtain ⟨hc2, -⟩ := compactRx_eq_ok hs2
  obtain ⟨t, ht⟩ := handOff_written (s := emit s2 (.srxie true)) (flen := flen)
    (by rw [emit_cfg, hc2]; simp only [r4]; exact hm)
    (by
      intro j hj
      have : s2.byteAt .rftx j = s1.byteAt .rftx j := by rw [hc2]; rfl
      rw [emit_byteAt, this]
      cases j with
      | zero => rw [hb0]; rfl
      | succ j =>
        obtain ⟨h1, h2⟩ := hbj j (by omega)
        rw [h1]
        exact h2)
  exact ⟨t, by simp only [sendFrame, hs1, ok_bind, hs2, ht]⟩

/-- The state `DISPATCH` hands to steps 4 to 6. -/
def dispatchReady (s : State) : State := { emit s (.srxie false) with pendTo := false }

/-- Everything `DISPATCH` can do (41_outbound_dispatcher.md R142, R143, R146, R148). -/
theorem dispatch_eq_ok {s t : State} {r : DispatchResult} (h : dispatch s = .ok (r, t)) :
    (s.pendCnt = 0 ∧ r = .empty ∧ t = s) ∨
    (s.pendCnt ≠ 0 ∧ r = .invalid ∧ ∃ info,
      t = dispatchInvalid (dispatchReady s) info ∧
      ((s.pendTo = false ∧ s.noDelim (min s.pendCnt s.rxLen) ∧ info = 0x00#8) ∨
        (s.frameLen 0 ∧ info = 0x00#8) ∨
        ∃ flen, s.frameLen flen ∧ flen > s.cfg.maxPay ∧ flen ≠ 0 ∧ info = guardInfo flen)) ∨
    (s.pendCnt ≠ 0 ∧ ∃ flen, s.frameLen flen ∧ flen ≠ 0 ∧ flen ≤ s.cfg.maxPay ∧
      r = .dispatched flen ∧ sendFrame (dispatchReady s) flen = .ok t) := by
  unfold dispatch at h
  split at h
  · rename_i hm
    have hm' : s.pendCnt ≠ 0 := by simpa [markerSet] using hm
    right
    simp only [bind_eq_ok] at h
    obtain ⟨⟨r1, s1⟩, hf, h⟩ := h
    obtain ⟨rfl, hsome, hnone⟩ := frameLength_eq_ok hf
    cases r1 with
    | none =>
      simp only [pure_eq_ok, Except.ok.injEq, Prod.mk.injEq] at h
      obtain ⟨rfl, rfl⟩ := h
      exact .inl ⟨hm', rfl, _, rfl, .inl ⟨(hnone rfl).1, (hnone rfl).2, rfl⟩⟩
    | some flen =>
      have hfl : s.frameLen flen := hsome flen rfl
      simp only at h
      split at h
      · rename_i h0
        simp only [pure_eq_ok, Except.ok.injEq, Prod.mk.injEq] at h
        obtain ⟨rfl, rfl⟩ := h
        subst h0
        exact .inl ⟨hm', rfl, _, rfl, .inr (.inl ⟨hfl, rfl⟩)⟩
      · rename_i h0
        split at h
        · rename_i hg
          simp only [pure_eq_ok, Except.ok.injEq, Prod.mk.injEq] at h
          obtain ⟨rfl, rfl⟩ := h
          exact .inl ⟨hm', rfl, _, rfl, .inr (.inr ⟨flen, hfl, hg, h0, rfl⟩)⟩
        · rename_i hg
          simp only [bind_eq_ok, pure_eq_ok, Except.ok.injEq, Prod.mk.injEq] at h
          obtain ⟨t', ht, rfl, rfl⟩ := h
          exact .inr ⟨hm', flen, hfl, h0, by simpa using hg, rfl, ht⟩
  · rename_i hm
    simp only [pure_eq_ok, Except.ok.injEq, Prod.mk.injEq] at h
    exact .inl ⟨by simpa [markerSet] using hm, h.1.symm, h.2.symm⟩

/-- `DISPATCH` never stops where the valid bytes have been written. -/
theorem dispatch_written {s : State} (hc : s.rxLen ≤ s.cfg.c) (hw : s.written .rxbuf s.rxLen) :
    ∃ r t, dispatch s = .ok (r, t) := by
  unfold dispatch
  split
  · obtain ⟨r1, s1, hf⟩ := frameLength_written (s := emit s (.srxie false)) hc hw
    obtain ⟨rfl, hsome, -⟩ := frameLength_eq_ok hf
    rw [hf]
    cases r1 with
    | none => exact ⟨_, _, rfl⟩
    | some flen =>
      have hfl : s.frameLen flen := hsome flen rfl
      simp only [ok_bind]
      split
      · exact ⟨_, _, rfl⟩
      · split
        · exact ⟨_, _, rfl⟩
        · rename_i hg
          obtain ⟨t, ht⟩ := sendFrame_written (s := dispatchReady s) (flen := flen)
            (frameLen_le (s := s) hfl) (Nat.le_of_not_lt hg) hc hw
          refine ⟨.dispatched flen, t, ?_⟩
          have ht' : sendFrame { emit s (.srxie false) with pendTo := false } flen = .ok t := ht
          rw [ht']
          rfl
  · exact ⟨_, _, rfl⟩

/-- `DISPATCH` of a frame of legal length sends it. -/
theorem dispatch_sends {s : State} {flen : Nat} (hc : s.rxLen ≤ s.cfg.c)
    (hw : s.written .rxbuf s.rxLen) (hm : s.pendCnt ≠ 0) (hf : s.frameLen flen) (h0 : flen ≠ 0)
    (hl : flen ≤ s.cfg.maxPay) :
    ∃ t, dispatch s = .ok (.dispatched flen, t) ∧ sendFrame (dispatchReady s) flen = .ok t := by
  obtain ⟨r, t, h⟩ := dispatch_written hc hw
  rcases dispatch_eq_ok h with h' | ⟨-, -, info, -, h' | h' | ⟨f, h', h2, h3, -⟩⟩ |
    ⟨-, f, h', h2, h3, h4, h5⟩
  · exact absurd h'.1 hm
  · exact absurd h'.2.1 (frameLen_not_noDelim hf h'.1)
  · exact absurd (frameLen_unique hf h'.1) h0
  · have := frameLen_unique hf h'
    omega
  · have := frameLen_unique hf h'
    subst this
    subst h4
    exact ⟨t, h, h5⟩

/-- `DISPATCH` where no frame can be sent. -/
theorem dispatch_rejects {s : State} (hc : s.rxLen ≤ s.cfg.c) (hw : s.written .rxbuf s.rxLen)
    (hm : s.pendCnt ≠ 0) :
    (s.pendTo = false → s.noDelim (min s.pendCnt s.rxLen) →
      dispatch s = .ok (.invalid, dispatchInvalid (dispatchReady s) 0x00#8)) ∧
    (s.frameLen 0 → dispatch s = .ok (.invalid, dispatchInvalid (dispatchReady s) 0x00#8)) ∧
    ∀ f, s.frameLen f → s.cfg.maxPay < f → f ≠ 0 →
      dispatch s = .ok (.invalid, dispatchInvalid (dispatchReady s) (guardInfo f)) := by
  obtain ⟨r, t, h⟩ := dispatch_written hc hw
  rcases dispatch_eq_ok h with h' | ⟨-, rfl, info, rfl, h' | h' | ⟨f, h', h2, h3, h4⟩⟩ |
    ⟨-, f, h', h2, h3, h4, h5⟩
  · exact absurd h'.1 hm
  · rw [h, h'.2.2]
    exact ⟨fun _ _ => rfl, fun _ => rfl,
      fun f hf _ _ => absurd h'.2.1 (frameLen_not_noDelim hf h'.1)⟩
  · rw [h, h'.2]
    exact ⟨fun _ _ => rfl, fun _ => rfl, fun f hf _ h0 => absurd (frameLen_unique hf h'.1) h0⟩
  · rw [h, h4]
    exact ⟨fun hp hn => absurd hn (frameLen_not_noDelim h' hp),
      fun h0 => absurd (frameLen_unique h' h0) h3,
      fun g hg _ _ => by rw [frameLen_unique h' hg]⟩
  · refine ⟨fun hp hn => absurd hn (frameLen_not_noDelim h' hp),
      fun h0 => absurd (frameLen_unique h' h0) h2, fun g hg _ _ => ?_⟩
    have := frameLen_unique h' hg
    omega

end Sys2Proof.Machine
end

