-- ==== Sys2Proof/Laws/Formatter.lean ====
section
/-! SUPPORT. The Numeric Formatter: its text, its length and when it fails. -/

namespace Sys2Proof.Machine

theorem decDigits_ne_nil (fuel m : Nat) : decDigits (fuel + 1) m ≠ [] := by
  simp only [decDigits]
  split <;> simp

theorem decText_ne_nil (v : Int) : decText v ≠ [] := by
  simp [decText, decDigits_ne_nil]

theorem decText_length_pos (v : Int) : 0 < (decText v).length :=
  List.length_pos_iff.2 (decText_ne_nil v)

/-- Reading digits one after another is reading them together. -/
theorem parseDigits_append (xs ys : List Byte) (acc : Nat) :
    parseDigits acc (xs ++ ys) = (parseDigits acc xs).bind fun a => parseDigits a ys := by
  induction xs generalizing acc with
  | nil => rfl
  | cons x xs ih =>
    simp only [List.cons_append, parseDigits]
    split
    · exact ih _
    · rfl

theorem decDigit_toNat {d : Nat} (h : d < 10) : (decDigit d).toNat = 0x30 + d := by
  simp only [decDigit, BitVec.toNat_ofNat]
  omega

/-- The digits of a number read back as the number. -/
theorem parseDigits_decDigits (fuel m : Nat) (h : m < fuel) :
    parseDigits 0 (decDigits fuel m) = some m := by
  induction fuel generalizing m with
  | zero => omega
  | succ fuel ih =>
    simp only [decDigits]
    split
    · rename_i hm
      have := decDigit_toNat hm
      simp only [parseDigits, this]
      rw [if_pos ⟨by omega, by omega⟩]
      congr 1
      omega
    · rename_i hm
      rw [parseDigits_append, ih (m / 10) (by omega)]
      have := decDigit_toNat (Nat.mod_lt m (by omega : 0 < 10))
      simp only [Option.bind_some, parseDigits, this]
      rw [if_pos ⟨by omega, by omega⟩]
      congr 1
      omega

/-- The first digit of a number is no minus sign. -/
theorem decDigits_head (fuel m : Nat) :
    ∃ d ds, decDigits (fuel + 1) m = d :: ds ∧ d ≠ 0x2D#8 := by
  induction fuel generalizing m with
  | zero =>
    simp only [decDigits, List.nil_append]
    split
    · exact ⟨_, _, rfl, fun h => by
        have := decDigit_toNat ‹m < 10›
        rw [h] at this
        simp only [BitVec.toNat_ofNat] at this
        omega⟩
    · exact ⟨_, _, rfl, fun h => by
        have := decDigit_toNat (Nat.mod_lt m (by omega : 0 < 10))
        rw [h] at this
        simp only [BitVec.toNat_ofNat] at this
        omega⟩
  | succ fuel ih =>
    simp only [decDigits]
    split
    · exact ⟨_, _, rfl, fun h => by
        have := decDigit_toNat ‹m < 10›
        rw [h] at this
        simp only [BitVec.toNat_ofNat] at this
        omega⟩
    · obtain ⟨d, ds, hd, hne⟩ := ih (m / 10)
      simp only [decDigits] at hd
      rw [hd]
      exact ⟨d, ds ++ [decDigit (m % 10)], rfl, hne⟩

/-- The number of digits is the least that holds the number. -/
theorem decDigits_length_le (fuel m k : Nat) (hm : m < fuel) (h : m < 10 ^ (k + 1)) :
    (decDigits fuel m).length ≤ k + 1 := by
  induction fuel generalizing m k with
  | zero => omega
  | succ fuel ih =>
    simp only [decDigits]
    split
    · simp
    · cases k with
      | zero => omega
      | succ k =>
        have := ih (m / 10) k (by omega) (by
          rw [Nat.div_lt_iff_lt_mul (by omega), ← Nat.pow_succ]
          exact h)
        simp only [List.length_append, List.length_cons, List.length_nil]
        omega

/-- `FMTDEC` where it succeeds. -/
theorem fmtDec_ok {v : BitVec Config.intw} {capacity : Nat}
    (h : (decText v.toInt).length + 1 ≤ capacity) :
    (fmtDec v capacity).len = (decText v.toInt).length ∧
      (fmtDec v capacity).buf.take (fmtDec v capacity).len = decText v.toInt ∧
      (fmtDec v capacity).buf[(decText v.toInt).length]? = some Config.terminator ∧
      (fmtDec v capacity).buf.length = capacity := by
  have hf : fmtDec v capacity = ⟨(decText v.toInt).length,
      decText v.toInt ++ [Config.terminator] ++
        scratch v capacity ((decText v.toInt).length + 1)⟩ := by
    simp only [fmtDec]
    rw [if_neg (by omega)]
  rw [hf]
  refine ⟨rfl, ?_, ?_, ?_⟩
  · simp
  · simp
  · simp only [scratch, List.length_append, List.length_cons, List.length_nil, List.length_map,
      List.length_range']
    omega

/-- `FMTDEC` where it fails. -/
theorem fmtDec_fails {v : BitVec Config.intw} {capacity : Nat}
    (h : capacity < (decText v.toInt).length + 1) : (fmtDec v capacity).len = 0 := by
  simp only [fmtDec]
  rw [if_pos h]

/-- The text of a telemetry byte (43_packet_validator.md R203, R204). -/
theorem telemetryNumber_eq (p : Params) (b : Byte) :
    telemetryNumber p b =
      if p.numCap < (decText (b.toNat : Int)).length + 1 then [Config.placeholder]
      else decText (b.toNat : Int) := by
  have hv : (telemetryOperand b).toInt = (b.toNat : Int) := by
    have hb := b.isLt
    have hw : 2 ^ Config.intw = 65536 := rfl
    have hn : (telemetryOperand b).toNat = b.toNat := by
      rw [telemetryOperand, BitVec.toNat_setWidth]
      exact Nat.mod_eq_of_lt (by rw [hw]; omega)
    rw [BitVec.toInt_eq_toNat_of_lt (by rw [hn]; omega), hn]
  simp only [telemetryNumber]
  split
  · rename_i h0
    split
    · rfl
    · rename_i hc
      have := (fmtDec_ok (v := telemetryOperand b) (capacity := p.numCap) (by rw [hv]; omega)).1
      rw [hv, h0] at this
      have := decText_length_pos (b.toNat : Int)
      omega
  · rename_i h0
    split
    · rename_i hc
      exact absurd (fmtDec_fails (by rw [hv]; exact hc)) h0
    · rename_i hc
      rw [(fmtDec_ok (by rw [hv]; omega)).2.1, hv]

/-- A telemetry number is 1 to 3 bytes. -/
theorem telemetryNumber_length (p : Params) (b : Byte) :
    1 ≤ (telemetryNumber p b).length ∧ (telemetryNumber p b).length ≤ 3 := by
  rw [telemetryNumber_eq]
  split
  · simp
  · have h1 := decText_length_pos (b.toNat : Int)
    refine ⟨h1, ?_⟩
    have hb := b.isLt
    have h2 := decDigits_length_le (b.toNat + 1) b.toNat 2 (by omega) (by omega)
    have hneg : ¬ ((b.toNat : Int) < 0) := by omega
    simp only [decText, if_neg hneg, Int.natAbs_natCast, List.nil_append]
    exact h2

/-- "`len(T)` is between 4 and 8 bytes" (43_packet_validator.md R202). -/
theorem telemetryText_length (p : Params) (a b : Byte) :
    4 ≤ (telemetryText p a b).length ∧ (telemetryText p a b).length ≤ 8 := by
  have h1 := telemetryNumber_length p a
  have h2 := telemetryNumber_length p b
  simp only [telemetryText, List.length_append, List.length_cons, List.length_nil]
  omega

end Sys2Proof.Machine
end

