-- ==== Sys2Proof/Laws/PerInstr.lean ====
section
/-! SUPPORT. A statement about every instruction as syntax, proved constructor by constructor. -/

namespace Sys2Proof.Laws.EncodesItsRow

/-- The event word of an instruction is legal, its row is one of the opcode table's, and it is the
only row that selects the word (30_encoding.md R92, R94). -/
def Statement (i : Instr) : Prop :=
  eventWordLegal (encode i) = true ∧ i.row ∈ eventRows ∧
    ∀ r ∈ eventRows, r.selects (encode i) = true ↔ r = i.row

theorem step : Statement .step := by unfold Statement; decide

theorem rxb (b : Byte) : Statement (.rxb b) := by unfold Statement; revert b; decide

theorem tmr : Statement .tmr := by unfold Statement; decide

theorem txd : Statement .txd := by unfold Statement; decide

theorem pkt : Statement .pkt := by unfold Statement; decide

end Sys2Proof.Laws.EncodesItsRow
end

