-- ==== Sys2Proof/Laws/Validator.lean ====
section
/-! SUPPORT. What the parts of `VALIDATE` do, said once. -/

namespace Sys2Proof.Machine

@[simp] theorem nextResponses_length (s : State) (n : Nat) : (nextResponses s n).length = n := by
  induction n generalizing s with
  | zero => rfl
  | succ n ih => simp [nextResponses, ih]

@[simp] theorem dropResponses_mem (s : State) (n : Nat) (b : Buf) :
    (dropResponses s n).mem b = s.mem b := by
  induction n generalizing s with
  | zero => rfl
  | succ n ih => rw [dropResponses, ih, dropResponse_mem]

@[simp] theorem dropResponses_byteAt (s : State) (n : Nat) (b : Buf) (i : Nat) :
    (dropResponses s n).byteAt b i = s.byteAt b i := by
  simp [State.byteAt]

@[simp] theorem dropResponse_byteAt (s : State) (b : Buf) (i : Nat) :
    (dropResponse s).byteAt b i = s.byteAt b i := by
  simp [State.byteAt]

@[simp] theorem dropResponses_cfg (s : State) (n : Nat) : (dropResponses s n).cfg = s.cfg := by
  obtain ⟨r, k, h⟩ := dropResponses_eq s n
  rw [h]

/-- Chosen responses come in the order they were chosen (30_encoding.md R101). -/
theorem nextResponses_append (s : State) (bs rest : List Byte) (h : s.responses = bs ++ rest) :
    nextResponses s bs.length = bs ∧ (dropResponses s bs.length).responses = rest ∧
      (dropResponses s bs.length).freeIdx = s.freeIdx := by
  induction bs generalizing s with
  | nil => exact ⟨rfl, by simpa [dropResponses] using h, rfl⟩
  | cons b bs ih =>
    have h1 : nextResponse s = b := by simp [nextResponse, h]
    have h2 : (dropResponse s).responses = bs ++ rest := by simp [dropResponse, h]
    have h3 : (dropResponse s).freeIdx = s.freeIdx := by simp [dropResponse, h]
    obtain ⟨i1, i2, i3⟩ := ih (dropResponse s) h2
    exact ⟨by simp [nextResponses, h1, i1], i2, i3.trans h3⟩

/-- Step 3. -/
theorem readPacket_eq_ok {s t : State} {n : Nat} (h : readPacket s n = .ok t) :
    t = { dropResponses (emit s (.rrfifo (BitVec.ofNat 8 n))) n with
        rfrx := t.rfrx, rfrxLen := n } ∧
      t.holds .rfrx 0 (nextResponses s n) ∧
      (∀ a, n ≤ a → t.byteAt .rfrx a = s.byteAt .rfrx a) ∧
      (Memory.wf s.rfrx = true → Memory.wf t.rfrx = true) ∧
      (n = 0 ∨ n ≤ s.cfg.rfRxCap) := by
  have hr : ∀ (s : State) (c : Command) (n : Nat),
      nextResponses (emit s c) n = nextResponses s n := by
    intro s c n
    induction n generalizing s with
    | zero => rfl
    | succ n ih =>
      have h2 : dropResponse (emit s c) = emit (dropResponse s) c := by
        unfold dropResponse
        rw [emit_responses]
        split <;> rfl
      rw [nextResponses, nextResponses, h2, ih]
      rfl
  simp only [readPacket, bind_eq_ok, pure_eq_ok, Except.ok.injEq] at h
  obtain ⟨u, hu, rfl⟩ := h
  obtain ⟨hw, hh⟩ := writeBytes_eq_ok hu
  simp only [hr, nextResponses_length] at hw hh
  refine ⟨?_, hh, fun a ha => ?_, fun hwf => ?_, ?_⟩
  · have := hw.eq
    rw [this]
    rfl
  · have := hw.frame a (by omega)
    rw [dropResponses_byteAt, emit_byteAt] at this
    exact this
  · have := hw.wf
    rw [dropResponses_mem, emit_mem] at this
    exact this hwf
  · have := hw.inside
    rw [dropResponses_cfg, emit_cfg] at this
    simpa [Params.cap] using this

theorem readPacket_inside {s : State} {n : Nat} (hn : n ≤ s.cfg.rfRxCap) :
    ∃ t, readPacket s n = .ok t := by
  obtain ⟨t, ht⟩ := writeBytes_inside
    (s := dropResponses (emit s (.rrfifo (BitVec.ofNat 8 n))) n) (b := .rfrx) (i := 0)
    (bs := nextResponses (emit s (.rrfifo (BitVec.ofNat 8 n))) n)
    (by simp only [nextResponses_length, dropResponses_cfg, emit_cfg, Params.cap]; omega)
  exact ⟨_, by simp only [readPacket, ht, ok_bind, pure_eq_ok]; rfl⟩

/-- Step 6. -/
theorem appendPayload_eq_ok {s t : State} {fwd : Nat} (h : appendPayload s fwd = .ok t) :
    t = { s with txbuf := t.txbuf, txLen := s.txLen + fwd } ∧
      (∀ j < fwd, t.byteAt .txbuf (s.txLen + j) = s.byteAt .rfrx (1 + j) ∧
        (s.byteAt .rfrx (1 + j)).isSome = true) ∧
      (∀ a, a < s.txLen ∨ s.txLen + fwd ≤ a → t.byteAt .txbuf a = s.byteAt .txbuf a) ∧
      (Memory.wf s.txbuf = true → Memory.wf t.txbuf = true) ∧
      (fwd = 0 ∨ s.txLen + fwd ≤ s.cfg.txCap) := by
  simp only [appendPayload, bind_eq_ok, pure_eq_ok, Except.ok.injEq] at h
  obtain ⟨u, hu, rfl⟩ := h
  obtain ⟨hw, hc⟩ := copyBytes_eq_ok hu (.inl (by simp))
  have e : u = { s with txbuf := u.txbuf } := hw.eq
  have hl : u.txLen = s.txLen := by rw [e]
  refine ⟨?_, hc, hw.frame, hw.wf, hw.inside⟩
  rw [hl, e]

theorem appendPayload_inside {s : State} {fwd : Nat} (ht : s.txLen + fwd ≤ s.cfg.txCap)
    (hr : 1 + fwd ≤ s.cfg.rfRxCap) (hw : ∀ j < fwd, (s.byteAt .rfrx (1 + j)).isSome = true) :
    ∃ t, appendPayload s fwd = .ok t := by
  obtain ⟨t, ht⟩ := copyBytes_inside (s := s) (src := .rfrx) (si := 1) (dst := .txbuf)
    (di := s.txLen) (n := fwd) (.inl (by simp)) hr ht hw
  exact ⟨_, by simp only [appendPayload, ht, ok_bind, pure_eq_ok]; rfl⟩

/-- Step 7: all or nothing (43_packet_validator.md R205). -/
theorem appendTelemetry_eq_ok {s t : State} {text : List Byte}
    (h : appendTelemetry s text = .ok t) :
    t = { s with
        txbuf := t.txbuf, txLen := s.txLen + (if text.length ≤ txFree s then text.length else 0),
        outputs := s.outputs ++ (if text.length ≤ txFree s then []
          else [errorOut .transmitBufferOverflow (BitVec.ofNat 8 text.length)]) } ∧
      (text.length ≤ txFree s → t.holds .txbuf s.txLen text) ∧
      (∀ a, a < s.txLen ∨ ¬ text.length ≤ txFree s ∨ s.txLen + text.length ≤ a →
        t.byteAt .txbuf a = s.byteAt .txbuf a) ∧
      (Memory.wf s.txbuf = true → Memory.wf t.txbuf = true) := by
  unfold appendTelemetry at h
  split at h
  · rename_i hf
    simp only [bind_eq_ok, pure_eq_ok, Except.ok.injEq] at h
    obtain ⟨u, hu, rfl⟩ := h
    obtain ⟨hw, hh⟩ := writeBytes_eq_ok hu
    have e : u = { s with txbuf := u.txbuf } := hw.eq
    have hl : u.txLen = s.txLen := by rw [e]
    refine ⟨?_, fun _ => hh, fun a ha => hw.frame a (by omega), hw.wf⟩
    rw [if_pos hf, if_pos hf, List.append_nil, hl, e]
  · rename_i hf
    simp only [pure_eq_ok, Except.ok.injEq] at h
    subst h
    refine ⟨?_, fun h => absurd h hf, fun a _ => by simp, id⟩
    rw [if_neg hf, if_neg hf]
    rfl

theorem appendTelemetry_inside {s : State} {text : List Byte} (h : s.txLen ≤ s.cfg.txCap) :
    ∃ t, appendTelemetry s text = .ok t := by
  unfold appendTelemetry
  split
  · rename_i hf
    obtain ⟨t, ht⟩ := writeBytes_inside (s := s) (b := .txbuf) (i := s.txLen) (bs := text)
      (by simp only [Params.cap]; simp only [txFree] at hf; omega)
    exact ⟨_, by rw [ht]; rfl⟩
  · exact ⟨_, rfl⟩

/-- Step 8. -/
theorem kickDrainer_eq_ok {s t : State} (h : kickDrainer s = .ok t) :
    ∃ first, (s.txActive = false → s.byteAt .txbuf s.txRd = some first) ∧
      t = { s with
        txActive := true,
        outputs := s.outputs ++ (if s.txActive then [] else [commandOut (.ssend first)]) } := by
  unfold kickDrainer at h
  split at h
  · rename_i ha
    simp only [pure_eq_ok, Except.ok.injEq] at h
    subst h
    refine ⟨0#8, fun hn => by simp [ha] at hn, ?_⟩
    rw [if_pos ha, List.append_nil]
    cases s
    simp only at ha
    subst ha
    rfl
  · rename_i ha
    simp only [bind_eq_ok, pure_eq_ok, Except.ok.injEq] at h
    obtain ⟨b, hb, rfl⟩ := h
    refine ⟨b, fun _ => (memRead_eq_ok.1 hb).2, ?_⟩
    rw [if_neg ha]
    rfl

theorem kickDrainer_written {s : State} (hc : s.txActive = false → s.txRd < s.cfg.txCap)
    (hw : s.txActive = false → (s.byteAt .txbuf s.txRd).isSome = true) :
    ∃ t, kickDrainer s = .ok t := by
  unfold kickDrainer
  split
  · exact ⟨_, rfl⟩
  · rename_i ha
    have ha' : s.txActive = false := by simpa using ha
    obtain ⟨v, hv, -⟩ := memRead_written (s := s) (b := .txbuf) (i := s.txRd) (hc ha') (hw ha')
    exact ⟨_, by rw [hv]; rfl⟩

/-- Steps 6 to 8: the payload goes behind what is queued, the telemetry behind it if it fits, and
an idle drainer is handed the first byte. -/
theorem forwardPacket_eq_ok {s t : State} {n : Nat} {r : ValidateResult}
    (h : forwardPacket s n = .ok (r, t)) :
    ∃ strength quality first text fit,
      s.byteAt .rfrx (n - 2) = some strength ∧ s.byteAt .rfrx (n - 1) = some quality ∧
      text = telemetryText s.cfg strength quality ∧
      (fit = decide (text.length ≤ s.cfg.txCap - (s.txLen + (n - 3)))) ∧
      r = .forwarded (n - 3) ∧
      t = { s with
        txbuf := t.txbuf,
        txLen := s.txLen + (n - 3) + (if fit then text.length else 0),
        txActive := true, rfrxLen := 0,
        outputs := s.outputs ++
          (if fit then [] else
            [errorOut .transmitBufferOverflow (BitVec.ofNat 8 text.length)]) ++
          (if s.txActive then [] else [commandOut (.ssend first)]) } ∧
      (s.txActive = false → t.byteAt .txbuf s.txRd = some first) ∧
      (∀ j < n - 3, t.byteAt .txbuf (s.txLen + j) = s.byteAt .rfrx (1 + j) ∧
        (s.byteAt .rfrx (1 + j)).isSome = true) ∧
      (fit = true → t.holds .txbuf (s.txLen + (n - 3)) text) ∧
      (∀ a, a < s.txLen ∨ s.txLen + (n - 3) + (if fit then text.length else 0) ≤ a →
        t.byteAt .txbuf a = s.byteAt .txbuf a) ∧
      (Memory.wf s.txbuf = true → Memory.wf t.txbuf = true) ∧
      (n - 3 = 0 ∨ s.txLen + (n - 3) ≤ s.cfg.txCap) := by
  simp only [forwardPacket, bind_eq_ok, pure_eq_ok, Except.ok.injEq, Prod.mk.injEq] at h
  obtain ⟨s1, h1, strength, hs, quality, hq, s2, h2, s3, h3, rfl, rfl⟩ := h
  obtain ⟨e1, p1, f1, w1, i1⟩ := appendPayload_eq_ok h1
  obtain ⟨e2, p2, f2, w2⟩ := appendTelemetry_eq_ok h2
  obtain ⟨first, p3, e3⟩ := kickDrainer_eq_ok h3
  have x1 : ∀ i, s1.byteAt .rfrx i = s.byteAt .rfrx i := fun i => by rw [e1]; rfl
  have c1 : s1.cfg = s.cfg := by rw [e1]
  have l1 : s1.txLen = s.txLen + (n - 3) := by rw [e1]
  have o1 : s1.outputs = s.outputs := by rw [e1]
  have free1 : txFree s1 = s.cfg.txCap - (s.txLen + (n - 3)) := by rw [txFree, c1, l1]
  rw [c1] at e2 p2 f2
  rw [free1] at e2 p2 f2
  rw [l1] at e2 p2 f2
  have a2 : s2.txActive = s.txActive := by rw [e2, e1]
  have r2 : s2.txRd = s.txRd := by rw [e2, e1]
  have t3 : ∀ i, s3.byteAt .txbuf i = s2.byteAt .txbuf i := fun i => by rw [e3]; rfl
  have t4 : ∀ i, ({ s3 with rfrxLen := 0 } : State).byteAt .txbuf i = s2.byteAt .txbuf i := t3
  refine ⟨strength, quality, first, _, _, ?_, ?_, rfl, rfl, rfl, ?_, fun ha => ?_, fun j hj => ?_,
    fun hf => ?_, fun a ha => ?_, fun hw => ?_, i1⟩
  · rw [← x1]; exact (memRead_eq_ok.1 hs).2
  · rw [← x1]; exact (memRead_eq_ok.1 hq).2
  · rw [e3, e2, e1]
    simp
  · rw [t4, ← p3 (a2.trans ha), r2]
  · obtain ⟨q1, q2⟩ := p1 j hj
    rw [t4, f2 _ (.inl (by omega))]
    exact ⟨q1, q2⟩
  · have hf' := of_decide_eq_true hf
    intro j hj
    rw [t4]
    exact p2 hf' j hj
  · rw [t4]
    simp only [decide_eq_true_eq] at ha
    by_cases hfit : (telemetryText s.cfg strength quality).length ≤
        s.cfg.txCap - (s.txLen + (n - 3))
    · rw [if_pos hfit] at ha
      rw [f2 a (by omega), f1 a (by omega)]
    · rw [if_neg hfit] at ha
      rw [f2 a (.inr (.inl hfit)), f1 a (by omega)]
  · have : Memory.wf s3.txbuf = true := by
      rw [e3]
      exact w2 (w1 hw)
    exact this

theorem forwardPacket_written {s : State} {n : Nat} (h5 : 5 ≤ n) (hn : n ≤ s.cfg.rfRxCap)
    (ht : s.txLen + (n - 3) ≤ s.cfg.txCap) (hw : s.written .rfrx n)
    (ha : s.txActive = false → s.txRd < s.txLen + (n - 3))
    (hb : s.txActive = false → s.written .txbuf s.txLen) :
    ∃ r t, forwardPacket s n = .ok (r, t) := by
  obtain ⟨s1, h1⟩ := appendPayload_inside (s := s) (fwd := n - 3) ht (by omega)
    fun j hj => hw _ (by omega)
  obtain ⟨e1, p1, f1, w1, -⟩ := appendPayload_eq_ok h1
  have x1 : ∀ i, s1.byteAt .rfrx i = s.byteAt .rfrx i := fun i => by rw [e1]; rfl
  have c1 : s1.cfg = s.cfg := by rw [e1]
  obtain ⟨strength, hs, -⟩ := memRead_written (s := s1) (b := .rfrx) (i := n - 2)
    (by rw [c1]; simp only [Params.cap]; omega) (by rw [x1]; exact hw _ (by omega))
  obtain ⟨quality, hq, -⟩ := memRead_written (s := s1) (b := .rfrx) (i := n - 1)
    (by rw [c1]; simp only [Params.cap]; omega) (by rw [x1]; exact hw _ (by omega))
  have l1 : s1.txLen = s.txLen + (n - 3) := by rw [e1]
  obtain ⟨s2, h2⟩ := appendTelemetry_inside (s := s1)
    (text := telemetryText s1.cfg strength quality) (by rw [l1, c1]; exact ht)
  obtain ⟨e2, p2, f2, w2⟩ := appendTelemetry_eq_ok h2
  have a2 : s2.txActive = s.txActive := by rw [e2, e1]
  have r2 : s2.txRd = s.txRd := by rw [e2, e1]
  have c2 : s2.cfg = s.cfg := by rw [e2, c1]
  obtain ⟨s3, h3⟩ := kickDrainer_written (s := s2)
    (fun h => by
      have := ha (a2 ▸ h)
      rw [r2, c2]
      omega)
    (fun h => by
      have hlt := ha (a2 ▸ h)
      have hwr := hb (a2 ▸ h)
      rw [r2, f2 _ (.inl (by omega))]
      by_cases hr : s.txRd < s.txLen
      · rw [f1 _ (.inl hr)]
        exact hwr _ hr
      · obtain ⟨q1, q2⟩ := p1 (s.txRd - s.txLen) (by omega)
        rw [show s.txLen + (s.txRd - s.txLen) = s.txRd by omega] at q1
        rw [q1]
        exact q2)
  exact ⟨_, _, by simp only [forwardPacket, h1, ok_bind, hs, hq, h2, h3, pure_eq_ok]; rfl⟩

/-- The state the radio's count is asked in, and the one a packet is read in. -/
def statusAsked (s : State) : State := dropResponse (emit s (.rstrobe .snop))

def countAsked (s : State) : State :=
  dropResponse (emit (statusAsked s) (.rread s.cfg.regRxCount))

/-- The status byte and the count byte that `VALIDATE` gets. -/
def statusByte (s : State) : Byte := nextResponse s

def countByte (s : State) : Byte := nextResponse (dropResponse s)

/-- `VALIDATE` as its first gate and the rest. -/
theorem validate_eq (s : State) : validate s =
    if statusIdle (statusByte s) then checkCount (countAsked s) (countByte s)
    else .ok (rejectPacket
      (raise { statusAsked s with linkErr := true } .radioStateMismatch (statusByte s))) := by
  have h1 : nextResponse (emit s (.rstrobe .snop)) = statusByte s := rfl
  have h2 : nextResponse (emit (dropResponse (emit s (.rstrobe .snop)))
      (.rread (dropResponse (emit s (.rstrobe .snop))).cfg.regRxCount)) = countByte s := by
    unfold countByte nextResponse
    simp only [emit_responses, emit_freeIdx]
    unfold dropResponse
    rw [emit_responses]
    cases s.responses <;> rfl
  unfold validate
  simp only [h1, h2]
  split
  · simp only [dropResponse_cfg, emit_cfg]
    rfl
  · rfl

/-- Everything the gates after the count can do. -/
theorem checkPacket_eq_ok {s t : State} {n : Nat} {r : ValidateResult}
    (h : checkPacket s n = .ok (r, t)) :
    ∃ q, s.byteAt .rfrx (n - 1) = some q ∧
      ((crcValid q = false ∧ r = .rejected ∧
          t = { raise s .crcFailure q with rfrxLen := 0 }) ∨
        (crcValid q = true ∧ txFree s < n - 3 ∧ r = .rejected ∧
          t = { raise s .transmitBufferOverflow (BitVec.ofNat 8 (n - 3)) with rfrxLen := 0 }) ∨
        (crcValid q = true ∧ n - 3 ≤ txFree s ∧ forwardPacket s n = .ok (r, t))) := by
  simp only [checkPacket, bind_eq_ok] at h
  obtain ⟨q, hq, h⟩ := h
  refine ⟨q, (memRead_eq_ok.1 hq).2, ?_⟩
  split at h
  · rename_i hc
    split at h
    · rename_i hf
      simp only [rejectPacket, pure_eq_ok, Except.ok.injEq, Prod.mk.injEq] at h
      exact .inr (.inl ⟨hc, hf, h.1.symm, h.2.symm⟩)
    · rename_i hf
      exact .inr (.inr ⟨hc, by omega, h⟩)
  · rename_i hc
    simp only [rejectPacket, pure_eq_ok, Except.ok.injEq, Prod.mk.injEq] at h
    exact .inl ⟨by simpa using hc, h.1.symm, h.2.symm⟩

theorem nextResponse_emit (s : State) (c : Command) :
    nextResponse (emit s c) = nextResponse s := rfl

theorem dropResponse_emit (s : State) (c : Command) :
    dropResponse (emit s c) = emit (dropResponse s) c := by
  unfold dropResponse
  rw [emit_responses]
  split <;> rfl

theorem statusIdle_iff (st : Byte) : statusIdle st = true ↔ st.extractLsb' 4 3 = 0#3 := by
  simp [statusIdle, statusState]

/-- The response bytes depend on the response fields only. -/
theorem nextResponses_congr {s t : State} (h : s.responses = t.responses)
    (hk : s.freeIdx = t.freeIdx) (n : Nat) : nextResponses s n = nextResponses t n := by
  induction n generalizing s t with
  | zero => rfl
  | succ n ih =>
    have h0 : nextResponse s = nextResponse t := by simp [nextResponse, h, hk]
    have h1 : (dropResponse s).responses = (dropResponse t).responses := by
      unfold dropResponse
      rw [h]
      split <;> simp_all
    have h2 : (dropResponse s).freeIdx = (dropResponse t).freeIdx := by
      unfold dropResponse
      rw [h]
      split <;> simp_all
    rw [nextResponses, nextResponses, h0, ih h1 h2]

theorem dropResponses_withOutputs (s : State) (o : List PortWord) (n : Nat) :
    dropResponses { s with outputs := o } n = { dropResponses s n with outputs := o } := by
  induction n generalizing s with
  | zero => rfl
  | succ n ih =>
    have : dropResponse { s with outputs := o } = { dropResponse s with outputs := o } := by
      unfold dropResponse
      simp only
      split <;> rfl
    rw [dropResponses, dropResponses, this, ih]

theorem dropResponses_add (s : State) (m n : Nat) :
    dropResponses (dropResponses s m) n = dropResponses s (n + m) := by
  induction m generalizing s with
  | zero => rfl
  | succ m ih => rw [dropResponses, ih]; rfl

@[simp] theorem dropResponses_outputs (s : State) (n : Nat) :
    (dropResponses s n).outputs = s.outputs := by
  obtain ⟨r, k, h⟩ := dropResponses_eq s n
  rw [h]

theorem statusAsked_eq (s : State) : statusAsked s = { dropResponse s with
    outputs := s.outputs ++ [commandOut (.rstrobe .snop)] } := by
  rw [statusAsked, dropResponse_emit, emit, dropResponse_outputs]

theorem countAsked_eq (s : State) : countAsked s = { dropResponses s 2 with
    outputs := s.outputs ++
      [commandOut (.rstrobe .snop), commandOut (.rread s.cfg.regRxCount)] } := by
  simp only [countAsked, statusAsked, dropResponse_emit, dropResponses]
  simp [emit]

/-- The state after step 3 of `VALIDATE`: status and count asked, and the count's bytes read into
the Radio Receive Frame (43_packet_validator.md R198). -/
structure PacketRead (s u : State) (nb : Byte) : Prop where
  eq : u = { dropResponses s (nb.toNat + 2) with
    rfrx := u.rfrx, rfrxLen := nb.toNat,
    outputs := s.outputs ++ [commandOut (.rstrobe .snop),
      commandOut (.rread s.cfg.regRxCount), commandOut (.rrfifo nb)] }
  frame : u.holds .rfrx 0 (nextResponses (dropResponses s 2) nb.toNat)
  beyond : ∀ a, nb.toNat ≤ a → u.byteAt .rfrx a = s.byteAt .rfrx a
  wf : Memory.wf s.rfrx = true → Memory.wf u.rfrx = true

theorem packetRead_of_readPacket {s u : State}
    (h : readPacket (countAsked s) (countByte s).toNat = .ok u) : PacketRead s u (countByte s) := by
  obtain ⟨e, h1, h2, h3, -⟩ := readPacket_eq_ok h
  refine ⟨?_, ?_, fun a ha => ?_, fun hw => h3 ?_⟩
  · have : emit (countAsked s) (.rrfifo (BitVec.ofNat 8 (countByte s).toNat)) =
        { dropResponses s 2 with
          outputs := s.outputs ++ [commandOut (.rstrobe .snop),
            commandOut (.rread s.cfg.regRxCount), commandOut (.rrfifo (countByte s))] } := by
      rw [countAsked_eq, emit]
      simp
    rw [e, this, dropResponses_withOutputs, dropResponses_add]
  · rwa [nextResponses_congr (t := dropResponses s 2)] at h1 <;> rw [countAsked_eq]
  · rw [h2 a ha, countAsked_eq]
    exact dropResponses_byteAt s 2 .rfrx a
  · rw [countAsked_eq]
    exact (congrArg Memory.wf (dropResponses_mem s 2 .rfrx)).trans hw

theorem countAsked_cfg (s : State) : (countAsked s).cfg = s.cfg := by
  rw [countAsked_eq]
  exact dropResponses_cfg s 2

/-- A frame whose count is legal is read, and `VALIDATE` goes on with its gates 4 and 5. -/
theorem validate_reads {s : State} (h : statusIdle (statusByte s) = true)
    (h5 : 5 ≤ (countByte s).toNat) (hc : (countByte s).toNat ≤ s.cfg.rfRxCap) :
    ∃ u, PacketRead s u (countByte s) ∧ validate s = checkPacket u (countByte s).toNat := by
  obtain ⟨u, hu⟩ := readPacket_inside (s := countAsked s) (n := (countByte s).toNat)
    (by rw [countAsked_cfg]; exact hc)
  refine ⟨u, packetRead_of_readPacket hu, ?_⟩
  rw [validate_eq, if_pos h, checkCount, countOperand, if_neg (Nat.not_lt.2 h5),
    if_neg (by rw [countAsked_cfg]; exact Nat.not_lt.2 hc), hu]
  rfl

/-- Everything `VALIDATE` can do up to gate 3; what follows is `checkPacket_eq_ok`. -/
theorem validate_eq_ok {s t : State} {r : ValidateResult} (h : validate s = .ok (r, t)) :
    (statusIdle (statusByte s) = false ∧ r = .rejected ∧
      t = { dropResponse s with
        linkErr := true, rfrxLen := 0,
        outputs := s.outputs ++ [commandOut (.rstrobe .snop),
          errorOut .radioStateMismatch (statusByte s)] }) ∨
    (statusIdle (statusByte s) = true ∧ r = .rejected ∧ ∃ e,
      ((countByte s).toNat < 5 ∧ e = ErrorKind.shortPacket ∨
        s.cfg.rfRxCap < (countByte s).toNat ∧ e = ErrorKind.oversizePacket) ∧
      t = { dropResponses s 2 with
        linkErr := true, rfrxLen := 0,
        outputs := s.outputs ++ [commandOut (.rstrobe .snop),
          commandOut (.rread s.cfg.regRxCount), errorOut e (countByte s)] }) ∨
    (statusIdle (statusByte s) = true ∧ 5 ≤ (countByte s).toNat ∧
      (countByte s).toNat ≤ s.cfg.rfRxCap ∧
      ∃ u, PacketRead s u (countByte s) ∧ checkPacket u (countByte s).toNat = .ok (r, t)) := by
  by_cases hi : statusIdle (statusByte s) = true
  · by_cases h5 : (countByte s).toNat < 5
    · rw [validate_eq, if_pos hi, checkCount, countOperand, if_pos h5] at h
      simp only [pure_eq_ok, Except.ok.injEq, rejectPacket, Prod.mk.injEq] at h
      refine .inr (.inl ⟨hi, h.1.symm, _, .inl ⟨h5, rfl⟩, ?_⟩)
      rw [← h.2, countAsked_eq]
      simp [raise]
    · by_cases hc : (countByte s).toNat ≤ s.cfg.rfRxCap
      · obtain ⟨u, hu, hv⟩ := validate_reads hi (Nat.le_of_not_lt h5) hc
        exact .inr (.inr ⟨hi, Nat.le_of_not_lt h5, hc, u, hu, hv ▸ h⟩)
      · rw [validate_eq, if_pos hi, checkCount, countOperand, if_neg h5,
          if_pos (by rw [countAsked_cfg]; omega)] at h
        simp only [pure_eq_ok, Except.ok.injEq, rejectPacket, Prod.mk.injEq] at h
        refine .inr (.inl ⟨hi, h.1.symm, _, .inr ⟨Nat.lt_of_not_le hc, rfl⟩, ?_⟩)
        rw [← h.2, countAsked_eq]
        simp [raise]
  · rw [validate_eq, if_neg hi] at h
    simp only [Except.ok.injEq, rejectPacket, Prod.mk.injEq] at h
    refine .inl ⟨by simpa using hi, h.1.symm, ?_⟩
    rw [← h.2, statusAsked_eq]
    simp [raise]

/-- The bytes `VALIDATE` stores: those of the frame it reads, at the front of `RFRX`, and in `TXBUF`
those between the old and the new `tx_len`. -/
theorem validate_storesOnly {s t : State} {r : ValidateResult} (h : validate s = .ok (r, t)) :
    (∀ a, (∀ n, s.readsPacket n → n ≤ a) → t.byteAt .rfrx a = s.byteAt .rfrx a) ∧
      ∀ a, a < s.txLen ∨ t.txLen ≤ a → t.byteAt .txbuf a = s.byteAt .txbuf a := by
  have early (n : Nat) (hx : t.rfrx = (dropResponses s n).mem .rfrx)
      (ht : t.txbuf = (dropResponses s n).mem .txbuf) :
      (∀ a, (∀ n, s.readsPacket n → n ≤ a) → t.byteAt .rfrx a = s.byteAt .rfrx a) ∧
        ∀ a, a < s.txLen ∨ t.txLen ≤ a → t.byteAt .txbuf a = s.byteAt .txbuf a := by
    rw [dropResponses_mem] at hx ht
    exact ⟨fun a _ => congrArg (Memory.read · a) hx, fun a _ => congrArg (Memory.read · a) ht⟩
  rcases validate_eq_ok h with ⟨-, -, e⟩ | ⟨-, -, k, -, e⟩ | ⟨hs, h5, hc, u, hu, hch⟩
  · exact early 1 (by rw [e]; rfl) (by rw [e]; rfl)
  · exact early 2 (by rw [e]; rfl) (by rw [e]; rfl)
  · have hr : s.readsPacket (countByte s).toNat := ⟨(statusIdle_iff _).1 hs, rfl, h5, hc⟩
    have hux (a : Nat) : u.byteAt .txbuf a = s.byteAt .txbuf a := by
      rw [hu.eq]
      exact dropResponses_byteAt s _ .txbuf a
    have hul : u.txLen = s.txLen := by
      obtain ⟨_, _, hd⟩ := dropResponses_eq s ((countByte s).toNat + 2)
      rw [hu.eq, hd]
    obtain ⟨q, -, ⟨-, -, e⟩ | ⟨-, -, -, e⟩ | ⟨-, -, hf⟩⟩ := checkPacket_eq_ok hch
    · rw [e]
      exact ⟨fun a ha => hu.beyond a (ha _ hr), fun a _ => hux a⟩
    · rw [e]
      exact ⟨fun a ha => hu.beyond a (ha _ hr), fun a _ => hux a⟩
    · obtain ⟨_, _, _, _, _, -, -, -, -, -, e, -, -, -, hframe, -⟩ := forwardPacket_eq_ok hf
      refine ⟨fun a ha => ?_, fun a ha => ?_⟩
      · rw [← hu.beyond a (ha _ hr), e]
        rfl
      · rw [e, ← hul] at ha
        rw [hframe a ha, hux]

end Sys2Proof.Machine
end

