-- ==== Sys2Proof/Laws/Steps.lean ====
section
/-! SUPPORT. What each operation can do, said once: the next states of `exec`, constructor by
constructor and phase by phase. -/

namespace Sys2Proof.Machine

/-- Steps 2 and 3 of `RXB`. -/
theorem rxbMark_rxbDisarm (s : State) (b : Byte) : rxbMark (rxbDisarm s) b = { s with
    tmrArmed := if b = Config.delim then false else true,
    pendCnt := if b = Config.delim then s.rxLen else s.pendCnt,
    wake := if b = Config.delim then true else s.wake,
    outputs := s.outputs ++ (if s.tmrArmed then [commandOut .tdisarm] else []) ++
      (if b = Config.delim then []
        else [commandOut (.tarm (BitVec.ofNat 8 s.cfg.flushDelay))]) } := by
  unfold rxbMark rxbDisarm
  by_cases h1 : b = Config.delim <;> by_cases h2 : s.tmrArmed = true <;> simp [h1, h2, emit]

/-- `RXB` with room in the buffer. -/
theorem exec_rxb_room {s : State} {b : Byte} (h : s.rxLen < s.cfg.c) :
    exec (.rxb b) s = .next (rxbMark (rxbDisarm { s with
      rxbuf := Memory.write s.rxbuf s.rxLen b, rxLen := s.rxLen + 1 }) b) := by
  have hr : rxRoom s = true := decide_eq_true h
  have hw : memWrite s .rxbuf s.rxLen b =
      .ok { s with rxbuf := Memory.write s.rxbuf s.rxLen b } := memWrite_eq_ok.2 ⟨h, rfl⟩
  simp only [exec, execRxb, rxbAppend, hr, if_true, hw, ok_bind, pure_eq_ok, finish_ok]

/-- `RXB` with the buffer full: the byte is dropped and reported. -/
theorem exec_rxb_full {s : State} {b : Byte} (h : ¬ s.rxLen < s.cfg.c) :
    exec (.rxb b) s = .next (rxbMark (rxbDisarm (raise s .receiveBufferOverflow b)) b) := by
  have hr : rxRoom s = false := decide_eq_false h
  simp only [exec, execRxb, rxbAppend, hr]
  rfl

/-- `TXD`. -/
theorem exec_txd_eq_next {s t : State} : exec .txd s = .next t ↔
    (s.txActive = false ∧ t = s) ∨
    (s.txActive = true ∧ s.txRd + 1 = s.txLen ∧
      t = { s with txRd := 0, txLen := 0, txActive := false }) ∨
    (s.txActive = true ∧ s.txRd + 1 ≠ s.txLen ∧ ∃ b, memRead s .txbuf (s.txRd + 1) = .ok b ∧
      t = { s with txRd := s.txRd + 1, outputs := s.outputs ++ [commandOut (.ssend b)] }) := by
  simp only [exec, execTxd]
  split
  · rename_i ha
    by_cases he : s.txRd + 1 = s.txLen
    · simp [drainNext, he, ha, eq_comm]
    · simp only [finish_eq_next, drainNext, he, if_false, bind_eq_ok, pure_eq_ok,
        Except.ok.injEq]
      have hm : memRead { s with txRd := s.txRd + 1 } .txbuf (s.txRd + 1) =
        memRead s .txbuf (s.txRd + 1) := rfl
      constructor
      · rintro ⟨b, h, rfl⟩
        exact .inr (.inr ⟨ha, he, b, hm ▸ h, by simp [emit, ha]⟩)
      · rintro (⟨h, -⟩ | ⟨-, h, -⟩ | ⟨-, -, b, h, rfl⟩)
        · simp [ha] at h
        · exact absurd h id
        · exact ⟨b, hm ▸ h, by simp [emit, ha]⟩
  · rename_i ha
    simp [ha, eq_comm]

/-- `STEP` in phase `POST` (42_link_state_machine.md R168). -/
theorem exec_post_eq_next {s t : State} (hp : s.seq = .post) : exec .step s = .next t ↔
    ((s.linkState = .transmitting ∨ s.pendCnt = 0) ∧ t = { s with seq := .top }) ∨
    (s.linkState ≠ .transmitting ∧ s.pendCnt ≠ 0 ∧
      ∃ r u, dispatch s = .ok (r, u) ∧ t = { u with seq := .top }) := by
  simp only [exec, execStep, hp, finish_eq_next, stepPost]
  by_cases h : s.linkState ≠ .transmitting ∧ markerSet s = true
  · have h2 : s.pendCnt ≠ 0 := by simpa [markerSet] using h.2
    rw [if_pos h]
    simp only [bind_eq_ok, pure_eq_ok, Except.ok.injEq, Prod.exists, h.1, h2, false_or, false_and,
      ne_eq, not_false_iff, true_and]
    constructor
    · rintro ⟨r, u, hd, ht⟩
      exact ⟨r, u, hd, ht.symm⟩
    · rintro ⟨r, u, hd, ht⟩
      exact ⟨r, u, hd, ht.symm⟩
  · have h2 : s.linkState = .transmitting ∨ s.pendCnt = 0 := by
      by_contra hc
      simp only [not_or] at hc
      exact h ⟨hc.1, by simpa [markerSet] using hc.2⟩
    rw [if_neg h]
    simp only [pure_eq_ok, Except.ok.injEq, h2, true_and]
    constructor
    · exact fun ht => .inl ht.symm
    · rintro (ht | ⟨h3, h4, -⟩)
      · exact ht.symm
      · exact absurd h2 (by simp [h3, h4])

/-- `PKT` while Listening (42_link_state_machine.md R174). -/
theorem exec_pkt_listening {s t : State} (h : s.linkState = .listening) :
    exec .pkt s = .next t ↔
      ∃ r u, validate s = .ok (r, u) ∧ t = { u with linkState := .idle, wake := true } := by
  simp only [exec, execPkt, packetBoundary, h, finish_eq_next, bind_eq_ok, pure_eq_ok,
    Except.ok.injEq, Prod.exists]
  constructor
  · rintro ⟨_, ⟨r, u, hv, rfl⟩, rfl⟩
    exact ⟨r, u, hv, rfl⟩
  · rintro ⟨r, u, hv, rfl⟩
    exact ⟨_, ⟨r, u, hv, rfl⟩, rfl⟩

/-- The bytes a `STEP` in phase `POST` stores: where it sends a frame, those of the frame and its
length byte in `RFTX` and the remaining ones in `RXBUF`; otherwise none. -/
theorem exec_post_storesOnly {s t : State} (hp : s.seq = .post) (h : exec .step s = .next t) :
    (∀ a, (∀ flen, s.sends flen → flen < a) → t.byteAt .rftx a = s.byteAt .rftx a) ∧
      ∀ a, (∀ flen, s.sends flen → s.rxLen - flen ≤ a) →
        t.byteAt .rxbuf a = s.byteAt .rxbuf a := by
  rcases (exec_post_eq_next hp).1 h with ⟨-, rfl⟩ | ⟨hl, hm, r, u, hd, rfl⟩
  · exact ⟨fun _ _ => rfl, fun _ _ => rfl⟩
  · rcases dispatch_eq_ok hd with ⟨-, -, rfl⟩ | ⟨-, -, info, rfl, -⟩ |
      ⟨-, flen, hf, h0, hle, -, hs⟩
    · exact ⟨fun _ _ => rfl, fun _ _ => rfl⟩
    · exact ⟨fun _ _ => rfl, fun _ _ => rfl⟩
    · obtain ⟨_, -, -, -, -, htx, -, hrx, -⟩ := sendFrame_eq_ok hs
      have hsends : s.sends flen := ⟨hl, hm, hf, h0, hle⟩
      exact ⟨fun a ha => htx a (ha _ hsends), fun a ha => hrx a (ha _ hsends)⟩

end Sys2Proof.Machine
end

