-- ==== Sys2Proof/Tests/Slice0.lean ====
section
/-! SUPPORT. Tests: the well-formedness smoke, words written out from 30_encoding.md, single steps
whose expected results are rows of 95_test_vectors.md, and for every statement with hypotheses a
state and operands that meet them. -/

namespace Sys2Proof.Slice0Tests

open Sys2Proof Sys2Proof.Machine

/-! ## Helpers -/

def bytes (l : List Nat) : List Byte := l.map (BitVec.ofNat 8)

/-- A buffer that holds a list of bytes from index 0. -/
def held (l : List Nat) : Memory := l.zipIdx.map fun p => (p.2, BitVec.ofNat 8 p.1)

/-- The next state of an outcome. -/
def after (o : Host.Outcome State Fault Refusal) : Option State :=
  match o with
  | .next s => some s
  | .fault _ => none
  | .refused _ => none

/-- The listening state of 95_test_vectors.md, with response bytes. -/
def listening (answers : List Nat) : State :=
  { State.reset with linkState := .listening, seq := .wait, ind := true, responses := bytes answers }

/-- The receive buffer, the marker and phase `POST` with the link Listening. -/
def received (l : List Nat) (pend : Nat) (timeout : Bool) : State :=
  { listening [] with
    rxbuf := held l, rxLen := l.length, pendCnt := pend, pendTo := timeout, seq := .post }

/-- An active drainer. -/
def queued (l : List Nat) (rd : Nat) (answers : List Nat) : State :=
  { listening answers with txbuf := held l, txLen := l.length, txRd := rd, txActive := true }

/-- Phase `POLL` with the link Idle. -/
def polling (k : Nat) (answers : List Nat) : State :=
  { State.reset with seq := .poll, pollK := k, responses := bytes answers }

/-- Reset with inputs to come. -/
def delivered (is : List Input) : State := { State.reset with inputs := is }

def letters (n : Nat) : List Nat := List.replicate n 0x78

def allBufs : List Buf := [.rxbuf, .txbuf, .rftx, .rfrx]

def writtenCheck (s : State) (b : Buf) (n : Nat) : Bool :=
  (List.range n).all fun i => (s.byteAt b i).isSome

/-- The invariants as a computation. -/
def invCheck (s : State) : Bool :=
  s.cfg.wellFormed && decide (s.rxLen ≤ s.cfg.c) && decide (s.pendCnt ≤ s.cfg.c) &&
  decide (s.txRd ≤ s.txLen) && decide (s.txLen ≤ s.cfg.txCap) &&
  decide (s.pendTo = true → s.pendCnt ≠ 0) && decide (s.pendCnt ≠ 0 → s.rxLen ≠ 0) &&
  decide (s.txActive = true ↔ 0 < s.txLen) && decide (s.txActive = true → s.txRd < s.txLen) &&
  decide (s.rfrxLen = 0) && decide (s.seq = .poll → s.linkState = .idle) &&
  decide (s.seq = .wait → s.linkState = .idle → s.wake = true) &&
  decide (s.pollK < s.cfg.pollCap) && allBufs.all (fun b => Memory.wf (s.mem b)) &&
  allBufs.all (fun b => (s.mem b).all fun c => decide (c.1 < Params.cap s.cfg b)) &&
  writtenCheck s .rxbuf s.rxLen && writtenCheck s .txbuf s.txLen

theorem written_of_check {s : State} {b : Buf} {n : Nat} (h : writtenCheck s b n = true) :
    s.written b n := by
  intro i hi
  exact List.all_eq_true.1 h i (List.mem_range.2 hi)

theorem inv_of_check {s : State} (h : invCheck s = true) : s.Inv := by
  simp only [invCheck, Bool.and_eq_true, decide_eq_true_eq, List.all_eq_true, allBufs] at h
  obtain ⟨⟨⟨⟨⟨⟨⟨⟨⟨⟨⟨⟨⟨⟨⟨⟨h1, h2⟩, h3⟩, h4⟩, h5⟩, h6⟩, h7⟩, h8⟩, h9⟩, h10⟩, h11⟩, h12⟩, h13⟩, h14⟩,
    h15⟩, h16⟩, h17⟩ := h
  have hb : ∀ b : Buf, b ∈ [Buf.rxbuf, .txbuf, .rftx, .rfrx] := fun b => by cases b <;> simp
  exact ⟨h1, h2, h3, h4, h5, h6, h7, h8, h9, h10, h11, h12, h13, fun b => h14 b (hb b),
    fun b i hi => read_eq_none_of_ne fun c hc he => by
      have := h15 b (hb b) c hc
      omega,
    written_of_check h16, written_of_check h17⟩

/-! ## Well-formedness: an ill-formed term for each check -/

/-- 00_scope.md R9 and R10: each constraint refuses the value next to its bound. -/
theorem test_params_refused :
    Params.t0.wellFormed = true ∧
    Params.maxPayOk { Params.t0 with maxPay := 1 } = false ∧
    Params.maxPayOk { Params.t0 with maxPay := 253 } = false ∧
    Params.txCapOk { Params.t0 with txCap := 0 } = false ∧
    Params.rfRxCapOk { Params.t0 with rfRxCap := 4 } = false ∧
    Params.rfRxCapOk { Params.t0 with rfRxCap := 256 } = false ∧
    Params.numCapOk { Params.t0 with numCap := 0 } = false ∧
    Params.flushMsOk { Params.t0 with flushMs := 0 } = false ∧
    Params.tmrMaxOk { Params.t0 with tmrMax := 0 } = false ∧
    Params.tmrMaxOk { Params.t0 with tmrMax := 256 } = false ∧
    Params.pollCapOk { Params.t0 with pollCap := 0 } = false ∧
    Params.wellFormed { Params.t0 with pollCap := 0 } = false := by decide

/-- 30_encoding.md R94: words of both reserved shapes; R100: a FIFO write of 256 bytes. -/
theorem test_words_and_commands_refused :
    eventWordLegal 0x001#12 = false ∧ eventWordLegal 0x480#12 = false ∧
    eventWordLegal 0x500#12 = false ∧ eventWordLegal 0x1FF#12 = true ∧
    (Command.rwfifo (List.replicate 256 0#8)).wellFormed = false ∧
    (Command.rwfifo (List.replicate 255 0#8)).wellFormed = true := by decide +kernel

/-- 93_implementation_defined.md U16: a step under ill-formed parameters is refused. -/
theorem test_step_refuses_parameters :
    step { State.reset with cfg := { Params.t0 with maxPay := 1 } } =
      .refused .parametersOutOfRange := rfl

/-! ## Decoding: words written out from 30_encoding.md R91, R92 (bits 11..8, then 7..0) -/

theorem test_decode_step : decode (0b0000#4 ++ 0b00000000#8) = .ok .step := rfl
theorem test_decode_rxb : decode (0b0001#4 ++ 0b01101000#8) = .ok (.rxb 0x68#8) := rfl
theorem test_decode_tmr : decode (0b0010#4 ++ 0b00000000#8) = .ok .tmr := rfl
theorem test_decode_txd : decode (0b0011#4 ++ 0b00000000#8) = .ok .txd := rfl
theorem test_decode_pkt : decode (0b0100#4 ++ 0b00000000#8) = .ok .pkt := rfl

/-- 95_test_vectors.md X1 to X4. -/
theorem test_decode_refuses :
    (decode 0x001#12).toOption = none ∧ (decode 0x2FF#12).toOption = none ∧
    (decode 0x301#12).toOption = none ∧ (decode 0x480#12).toOption = none ∧
    (decode 0x500#12).toOption = none ∧ (decode 0x7AB#12).toOption = none ∧
    (decode 0xFFF#12).toOption = none ∧ (decode 0x10A#12).toOption = some (.rxb 0x0A#8) := by
  decide

/-- No word is under two rows: wherever two rows' masks overlap, their patterns differ. -/
theorem test_rows_disjoint :
    eventRows.Pairwise fun r r' => r.pattern &&& r'.mask ≠ r'.pattern &&& r.mask := by decide

/-- The table's numbering: the event word's bits above the 12 wires are no word. -/
theorem test_decodeTableWord :
    decodeTableWord 16 0x1FF = some (.rxb 0xFF#8) ∧ decodeTableWord 16 0x400 = some .pkt ∧
    decodeTableWord 16 0x401 = none ∧ decodeTableWord 16 0x1000 = none := by decide

/-- A word placed by `withFetchWord` is the one the next step runs. -/
theorem test_withFetchWord :
    (after (step (State.reset.withFetchWord 16 0x168))).map (·.rxLen) = some 1 ∧
    (after (step (State.reset.withFetchWord 16 0x400))).map (·.wake) = some true := by decide

/-! ## Single steps, from the rows of 95_test_vectors.md -/

/-- F3: the delimiter marks the frame. -/
theorem test_rxb_delimiter :
    (after (exec (.rxb 0x0A#8) { State.reset with
      rxbuf := held [0x68, 0x69], rxLen := 2, tmrArmed := true })).map
      (fun t => (t.rxbuf, t.rxLen, t.pendCnt, t.wake, t.tmrArmed, t.outputs)) =
    some (held [0x68, 0x69, 0x0A], 3, 3, true, false, [.command 0x900#12 []]) := rfl

/-- F6: the byte that finds the buffer full is reported and dropped, the timer armed anew. -/
theorem test_rxb_overflow :
    (after (exec (.rxb 0x79#8) { State.reset with
      rxbuf := held (letters 48), rxLen := 48, tmrArmed := true })).map
      (fun t => (t.rxLen, t.pendCnt, t.wake, t.tmrArmed, t.outputs)) =
    some (48, 0, false, true,
      [.report 0x179#12, .command 0x900#12 [], .command 0x805#12 []]) := by decide

/-- F15: the timeout marks the whole buffer over an earlier marker. -/
theorem test_tmr_marks :
    (after (exec .tmr { received [0x61, 0x62, 0x0A, 0x63, 0x64] 3 false with
      tmrArmed := true })).map (fun t => (t.pendCnt, t.pendTo, t.wake, t.tmrArmed)) =
    some (5, true, true, false) := by decide

/-- F14: an empty buffer is not marked. -/
theorem test_tmr_empty :
    (after (exec .tmr { State.reset with tmrArmed := true })).map
      (fun t => (t.pendCnt, t.pendTo, t.wake, t.tmrArmed)) = some (0, false, false, false) := by
  decide

/-- D5: the first of two frames leaves, the second stays behind its stale marker. -/
theorem test_step_dispatches :
    (after (exec .step (received [0x61, 0x62, 0x0A, 0x63, 0x64, 0x0A] 6 false))).map
      (fun t => (t.outputs, (List.range 3).map (t.byteAt .rxbuf), t.rxLen, t.pendCnt,
        t.linkState)) =
    some ([.command 0x700#12 [], .command 0x701#12 [], .command 0x101#12 [],
        .command 0x304#12 (bytes [0x03, 0x61, 0x62, 0x0A]), .command 0x103#12 []],
      [some 0x63#8, some 0x64#8, some 0x0A#8], 3, 6, .transmitting) := by decide

/-- L8: the last permitted poll fails. -/
theorem test_step_poll_cap :
    (after (exec .step (polling 3 [0x10]))).map
      (fun t => (t.outputs, t.linkErr, t.seq, t.pollK)) =
    some ([.command 0x100#12 [], .report 0x810#12], true, .top, 3) := by decide

/-- V1: payload and telemetry are queued, the drainer is started. -/
theorem test_pkt_forwards :
    (after (exec .pkt (listening [0x00, 6, 0x05, 0x6F, 0x6B, 0x0A, 0x2A, 0x80]))).map
      (fun t => (t.outputs, t.txbuf, t.txLen, t.txActive, t.linkState)) =
    some ([.command 0x100#12 [], .command 0x23B#12 [], .command 0x406#12 [],
        .command 0x66F#12 []],
      held [0x6F, 0x6B, 0x0A, 0x34, 0x32, 0x20, 0x31, 0x32, 0x38, 0x0A], 10, true, .idle) := by
  decide

/-- V9: only bit 7 of the quality byte counts. -/
theorem test_pkt_crc :
    (after (exec .pkt (listening [0x00, 6, 0x03, 0x6F, 0x6B, 0x0A, 0x2A, 0x7F]))).map
      (fun t => (t.outputs, t.txLen, t.linkErr, t.rfrxLen)) =
    some ([.command 0x100#12 [], .command 0x23B#12 [], .command 0x406#12 [], .report 0x67F#12],
      0, false, 0) := by decide

/-- T1 and T3: the next byte is sent; at the end the queue is emptied. -/
theorem test_txd :
    (after (exec .txd (queued [0x6F, 0x6B] 0 []))).map (fun t => (t.outputs, t.txRd, t.txLen)) =
      some ([.command 0x66B#12 []], 1, 2) ∧
    (after (exec .txd (queued [0x6F, 0x6B] 1 []))).map
      (fun t => (t.outputs, t.txRd, t.txLen, t.txActive)) = some ([], 0, 0, false) := by decide

/-- N1, N5, N14, N19, N20. -/
theorem test_fmtDec :
    (fmtDec 42#16 8).len = 2 ∧ (fmtDec 42#16 8).buf.take 3 = bytes [0x34, 0x32, 0x00] ∧
    (fmtDec 0#16 1).len = 0 ∧
    (fmtDec 0xFFF9#16 8).buf.take 3 = bytes [0x2D, 0x37, 0x00] ∧
    (fmtDec 0x8000#16 7).buf = bytes [0x2D, 0x33, 0x32, 0x37, 0x36, 0x38, 0x00] ∧
    (fmtDec 0x8000#16 6).len = 0 := ⟨rfl, rfl, rfl, rfl, rfl, rfl⟩

/-- V18 and V19: the placeholder. -/
theorem test_telemetry_placeholder :
    telemetryText { Params.t0 with numCap := 3 } 42#8 128#8 =
      bytes [0x34, 0x32, 0x20, 0x3F, 0x0A] ∧
    telemetryText { Params.t0 with numCap := 1 } 42#8 128#8 =
      bytes [0x3F, 0x20, 0x3F, 0x0A] := ⟨rfl, rfl⟩

/-! ## Witnesses: states and operands that meet the hypotheses of each statement -/

theorem test_witness_EventWordsDecodeAndEncodeAgree :
    decode 0x1FF#12 = .ok (.rxb 0xFF#8) ∧ decode 0x400#12 = .ok .pkt := ⟨rfl, rfl⟩

theorem test_witness_CommandWordsTellCommandsApart :
    (Command.rwfifo [0x01#8, 0x0A#8]).wellFormed = true ∧
    (Command.tarm 0xFF#8).wellFormed = true ∧
    commandOut (.rwfifo [0x01#8, 0x0A#8]) = commandOut (.rwfifo [0x01#8, 0x0A#8]) := by decide

theorem test_witness_OutputWordsMatchTheCommandTable :
    (List.replicate 255 0x78#8).length ≤ 255 ∧ ([] : List Byte).length ≤ 255 :=
  ⟨by rw [List.length_replicate], by decide⟩

theorem test_witness_StepRunsTheDecodedOperation :
    State.reset.cfg.wellFormed = true ∧ State.reset.inputs = [] ∧
    (delivered [.event 0x10A#12, .reset]).inputs = .event 0x10A#12 :: [.reset] ∧
    decode 0x10A#12 = .ok (.rxb 0x0A#8) ∧ (delivered [.reset]).inputs = .reset :: [] :=
  ⟨by decide, rfl, rfl, rfl, rfl⟩

/-- The words next to the legal ones: the least reserved `OP`, and `DATA` 1 and 255. -/
theorem test_witness_ReservedEventWordsAreIgnored :
    ((delivered [.event 0x500#12]).cfg.wellFormed = true ∧
      (delivered [.event 0x500#12]).inputs = .event 0x500#12 :: [] ∧
      5 ≤ ((0x500#12).extractLsb' 8 4).toNat) ∧
    ((delivered [.event 0x001#12]).cfg.wellFormed = true ∧
      (delivered [.event 0x001#12]).inputs = .event 0x001#12 :: [] ∧
      (0x001#12).extractLsb' 8 4 = 0x0#4 ∧ (0x001#12).extractLsb' 0 8 ≠ 0x00#8) ∧
    ((delivered [.event 0x4FF#12]).cfg.wellFormed = true ∧
      (delivered [.event 0x4FF#12]).inputs = .event 0x4FF#12 :: [] ∧
      (0x4FF#12).extractLsb' 8 4 = 0x4#4 ∧ (0x4FF#12).extractLsb' 0 8 ≠ 0x00#8) := by decide

theorem test_witness_ResetPutsEveryRegisterAtItsResetValue :
    (delivered [.reset, .event 0x300#12]).cfg.wellFormed = true ∧
    (delivered [.reset, .event 0x300#12]).inputs = .reset :: [.event 0x300#12] := by decide

/-- The last slot and the full buffer. -/
theorem test_witness_RxbAppendsAndMarksOrArms :
    (received (letters 47) 0 false).rxLen < 3 * (received (letters 47) 0 false).cfg.maxPay ∧
    ¬ (received (letters 48) 0 false).rxLen < 3 * (received (letters 48) 0 false).cfg.maxPay := by
  decide

/-- One byte, and as many as a frame may hold. -/
theorem test_witness_UnterminatedBytesLeaveAsOneFrame :
    State.reset.Inv ∧ State.reset.rxLen = 0 ∧
    (bytes [0x61] ≠ [] ∧ (bytes [0x61]).length ≤ State.reset.cfg.maxPay ∧
      Config.delim ∉ bytes [0x61]) ∧
    bytes (letters 16) ≠ [] ∧ (bytes (letters 16)).length ≤ State.reset.cfg.maxPay ∧
    Config.delim ∉ bytes (letters 16) :=
  ⟨inv_of_check (by decide), rfl, by decide, by decide, by decide, by decide⟩

/-- The empty line, and the longest frame with the buffer full behind it. -/
theorem test_witness_DelimitedBytesLeaveAsOneFrame :
    (listening []).Inv ∧ (listening []).rxLen = 0 ∧
    ((bytes []).length + 1 ≤ (listening []).cfg.maxPay ∧
      (bytes []).length + 1 + (bytes []).length ≤ 3 * (listening []).cfg.maxPay ∧
      Config.delim ∉ bytes []) ∧
    (bytes (letters 15)).length + 1 ≤ (listening []).cfg.maxPay ∧
    (bytes (letters 15)).length + 1 + (bytes (letters 32)).length ≤
      3 * (listening []).cfg.maxPay ∧
    Config.delim ∉ bytes (letters 15) ∧ Config.delim ∉ bytes (letters 32) :=
  ⟨inv_of_check (by decide), rfl, by decide, by decide, by decide, by decide, by decide⟩

theorem test_witness_DispatchIsEmptyExactlyWithoutMarker :
    State.reset.pendCnt = 0 ∧ dispatch State.reset = .ok (.empty, State.reset) := ⟨rfl, rfl⟩

/-- A window with a delimiter at its end, and one cut before the delimiter. -/
theorem test_witness_ScanFindsTheLeastDelimiterOfTheWindow :
    (received [0x61, 0x0A] 2 false).Inv ∧ (received [0x61, 0x0A] 2 false).pendTo = false ∧
    (received [0x61, 0x0A] 1 false).Inv ∧ (received [0x61, 0x0A] 1 false).pendTo = false :=
  ⟨inv_of_check (by decide), rfl, inv_of_check (by decide), rfl⟩

theorem test_witness_PostRunsDispatchExactlyWhenAllowed :
    (received [0x0A] 1 false).seq = .post ∧
    (received [0x0A] 1 false).linkState ≠ .transmitting ∧
    (received [0x0A] 1 false).pendCnt ≠ 0 ∧
    (∃ r t, dispatch (received [0x0A] 1 false) = .ok (r, t)) ∧
    (received [] 0 false).pendCnt = 0 ∧
    { received [0x0A] 1 false with linkState := .transmitting }.seq = .post :=
  ⟨rfl, by decide, by decide, ⟨_, _, rfl⟩, rfl, rfl⟩

/-- The longest frame, found by its delimiter, with a byte behind it. -/
def longest : State := received (letters 15 ++ [0x0A, 0x78]) 16 false

theorem test_witness_PostSendsTheFrameVerbatim :
    (longest.Inv ∧ longest.seq = .post ∧ longest.linkState ≠ .transmitting ∧
      longest.pendCnt ≠ 0 ∧ longest.frameLen 16 ∧ 16 ≤ longest.cfg.maxPay) ∧
    (received [0x61] 1 true).Inv ∧ (received [0x61] 1 true).seq = .post ∧
    (received [0x61] 1 true).linkState ≠ .transmitting ∧ (received [0x61] 1 true).pendCnt ≠ 0 ∧
    (received [0x61] 1 true).frameLen 1 ∧ 1 ≤ (received [0x61] 1 true).cfg.maxPay :=
  ⟨⟨inv_of_check (by decide), rfl, by decide, by decide,
      .inr ⟨rfl, 15, ⟨by decide, rfl, by decide⟩, rfl⟩, by decide⟩,
    inv_of_check (by decide), rfl, by decide, by decide, .inl ⟨rfl, rfl⟩, by decide⟩

/-- The premises common to the three clauses of `InvalidFrameResetsTheReceiveBuffer`. -/
def AtPostMarked (s : State) : Prop :=
  s.rxLen ≤ 3 * s.cfg.maxPay ∧ s.written .rxbuf s.rxLen ∧ s.seq = .post ∧
    s.linkState ≠ .transmitting ∧ s.pendCnt ≠ 0

/-- D15 (no delimiter), a zero length, and D14 (a frame one byte too long). -/
theorem test_witness_InvalidFrameResetsTheReceiveBuffer :
    (AtPostMarked (received (letters 48) 48 false) ∧
      (received (letters 48) 48 false).pendTo = false ∧
      (received (letters 48) 48 false).noDelim 48) ∧
    (AtPostMarked (received [] 1 true) ∧ (received [] 1 true).frameLen 0) ∧
    AtPostMarked (received (letters 17) 17 true) ∧
    (received (letters 17) 17 true).frameLen 17 ∧
    (received (letters 17) 17 true).cfg.maxPay < 17 :=
  ⟨⟨⟨by decide, written_of_check (by decide), rfl, by decide, by decide⟩, rfl,
      by unfold State.noDelim; decide⟩,
    ⟨⟨by decide, written_of_check (by decide), rfl, by decide, by decide⟩, .inl ⟨rfl, rfl⟩⟩,
    ⟨by decide, written_of_check (by decide), rfl, by decide, by decide⟩, .inl ⟨rfl, rfl⟩,
    by decide⟩

theorem test_witness_TopTogglesAndLeavesIdleThroughPolling :
    State.reset.seq = .top ∧ { listening [] with seq := .top }.seq = .top := ⟨rfl, rfl⟩

/-- L9 and L10: only `ST[6:4]` counts. -/
theorem test_witness_PollAnsweredIdleStartsListening :
    (polling 3 [0x8F]).seq = .poll ∧ (nextResponse (polling 3 [0x8F])).extractLsb' 4 3 = 0#3 := by
  decide

/-- L7 and L8, with the reserved status of L11. -/
theorem test_witness_PollNotIdleCountsUpToTheCap :
    ((polling 2 [0x70]).seq = .poll ∧ (nextResponse (polling 2 [0x70])).extractLsb' 4 3 ≠ 0#3 ∧
      (polling 2 [0x70]).pollK + 1 < (polling 2 [0x70]).cfg.pollCap) ∧
    (polling 3 [0x70]).seq = .poll ∧ (nextResponse (polling 3 [0x70])).extractLsb' 4 3 ≠ 0#3 ∧
    (polling 3 [0x70]).cfg.pollCap ≤ (polling 3 [0x70]).pollK + 1 := by decide

theorem test_witness_PollCapBoundsTheWait :
    (polling 0 [0x10, 0x40, 0x70, 0x10]).seq = .poll ∧
    (polling 0 [0x10, 0x40, 0x70, 0x10]).pollK = 0 ∧
    (polling 0 [0x10, 0x40, 0x70, 0x10]).responses = bytes [0x10, 0x40, 0x70] ++ [0x10#8] ++ [] ∧
    (bytes [0x10, 0x40, 0x70]).length + 1 = (polling 0 [0x10, 0x40, 0x70, 0x10]).cfg.pollCap ∧
    ∀ st ∈ bytes [0x10, 0x40, 0x70] ++ [0x10#8], st.extractLsb' 4 3 ≠ 0#3 := by decide

theorem test_witness_OnlyTheWakeLatchEndsTheWait :
    (listening []).seq = .wait ∧ { listening [] with wake := true }.wake = true ∧
    (∃ t, exec (.rxb 0x0A#8) (listening []) = .next t) ∧
    (∃ t, exec .txd (listening []) = .next t) := ⟨rfl, rfl, ⟨_, rfl⟩, ⟨_, rfl⟩⟩

/-- One state for each link state: `PktEndsATransmission`, `PktWhileIdleOnlyWakes` and
`PktWhileListeningValidatesAndGoesIdle`. -/
theorem test_witness_Pkt_by_link_state :
    { listening [] with linkState := .transmitting }.linkState = .transmitting ∧
    State.reset.linkState = .idle ∧ (listening [0x50]).Inv ∧
    (listening [0x50]).linkState = .listening := ⟨rfl, rfl, inv_of_check (by decide), rfl⟩

/-- V10. -/
theorem test_witness_UnexpectedStatusRejectsThePacket :
    (listening [0x10]).linkState = .listening ∧
    (nextResponse (listening [0x10])).extractLsb' 4 3 ≠ 0#3 := by decide

/-- V3 and V6: the counts next to the legal range. -/
theorem test_witness_CountOutOfRangeRejectsThePacket :
    ((listening [0x00, 4]).linkState = .listening ∧
      (nextResponse (listening [0x00, 4])).extractLsb' 4 3 = 0#3 ∧
      4#8 = nextResponse (dropResponse (listening [0x00, 4])) ∧ (4#8).toNat < 5) ∧
    (listening [0x00, 20]).linkState = .listening ∧
    (nextResponse (listening [0x00, 20])).extractLsb' 4 3 = 0#3 ∧
    20#8 = nextResponse (dropResponse (listening [0x00, 20])) ∧ 5 ≤ (20#8).toNat ∧
    (listening [0x00, 20]).cfg.rfRxCap < (20#8).toNat := by decide

/-- A packet delivered to a state with the link Listening, with everything the statements about
gates 4 and 5 ask of it: an Idle status, a legal count, the frame, and its quality byte. -/
def Arrives (s : State) (nb : Byte) (fifo : List Byte) (q : Byte) : Prop :=
  s.linkState = .listening ∧ (nextResponse s).extractLsb' 4 3 = 0#3 ∧
    nb = nextResponse (dropResponse s) ∧ 5 ≤ nb.toNat ∧ nb.toNat ≤ s.cfg.rfRxCap ∧
    fifo = nextResponses (dropResponses s 2) nb.toNat ∧ fifo[nb.toNat - 1]? = some q

/-- V8: the least count. -/
theorem test_witness_ClearCrcBitRejectsThePacket :
    Arrives (listening [0x00, 5, 4, 0x6F, 0x6B, 0x0A, 0x00]) 5#8
      (bytes [4, 0x6F, 0x6B, 0x0A, 0x00]) 0x00#8 ∧ (0x00#8).getLsbD 7 = false := by
  unfold Arrives; decide

/-- The packet of V1. -/
def v1 : List Nat := [5, 0x6F, 0x6B, 0x0A, 0x2A, 0x80]

/-- V13: two bytes free, three needed. -/
theorem test_witness_FullTransmitBufferRejectsThePacket :
    Arrives (queued (letters 62) 10 ([0x00, 6] ++ v1)) 6#8 (bytes v1) 0x80#8 ∧
    (0x80#8).getLsbD 7 = true ∧
    (queued (letters 62) 10 ([0x00, 6] ++ v1)).cfg.txCap -
      (queued (letters 62) 10 ([0x00, 6] ++ v1)).txLen < (6#8).toNat - 3 := by
  unfold Arrives; decide

/-- The longest packet with the greatest status bytes: V5. -/
def v5 : List Nat := [16] ++ letters 16 ++ [0xFF, 0xFF]

/-- V5 (the greatest count, an idle drainer), V14 (payload and telemetry just fit) and V16 (the
payload alone just fits). -/
theorem test_witness_AcceptedPacketIsForwarded :
    ((listening ([0x00, 19] ++ v5)).Inv ∧
      Arrives (listening ([0x00, 19] ++ v5)) 19#8 (bytes v5) 0xFF#8 ∧
      (bytes v5)[1]? = some 0x78#8 ∧ (bytes v5)[19 - 2]? = some 0xFF#8 ∧
      (0xFF#8).getLsbD 7 = true ∧ 19 - 3 ≤ 64 - (listening ([0x00, 19] ++ v5)).txLen) ∧
    ((queued (letters 54) 53 ([0x00, 6] ++ v1)).Inv ∧
      Arrives (queued (letters 54) 53 ([0x00, 6] ++ v1)) 6#8 (bytes v1) 0x80#8 ∧
      (bytes v1)[1]? = some 0x6F#8 ∧ (bytes v1)[6 - 2]? = some 0x2A#8 ∧
      (0x80#8).getLsbD 7 = true ∧
      6 - 3 ≤ 64 - (queued (letters 54) 53 ([0x00, 6] ++ v1)).txLen ∧
      (telemetryText Params.t0 0x2A#8 0x80#8).length = 64 - (54 + (6 - 3))) ∧
    (queued (letters 61) 10 ([0x00, 6] ++ v1)).Inv ∧
    Arrives (queued (letters 61) 10 ([0x00, 6] ++ v1)) 6#8 (bytes v1) 0x80#8 ∧
    6 - 3 ≤ 64 - (queued (letters 61) 10 ([0x00, 6] ++ v1)).txLen :=
  ⟨⟨inv_of_check (by decide), by unfold Arrives; decide, by decide, by decide, by decide,
      by decide⟩,
    ⟨inv_of_check (by decide), by unfold Arrives; decide, by decide, by decide, by decide,
      by decide, rfl⟩,
    inv_of_check (by decide), by unfold Arrives; decide, by decide⟩

theorem test_witness_RejectedPacketAppendsNothing :
    ∃ u, validate (listening [0x10]) = .ok (.rejected, u) := ⟨_, rfl⟩

/-- The capacities at which the longest and the shortest text just fit, and 0 and 9. -/
theorem test_witness_FmtDec :
    (decText (0x8000#16).toInt).length + 1 ≤ 7 ∧ (decText (0#16).toInt).length + 1 ≤ 2 ∧
    (0 : Int) ≤ (9#16).toInt ∧ (9#16).toInt ≤ 9 ∧ decText (7#16).toInt = decText (7#16).toInt := by
  decide

theorem test_witness_TelemetryTextIsDecimalOrPlaceholder :
    4 ≤ ({ Params.t0 with numCap := 4 } : Params).numCap := by decide

/-- T4, T3 and T1. -/
theorem test_witness_TxdSendsTheNextByteOrEndsTheQueue :
    State.reset.Inv ∧ State.reset.txActive = false ∧
    (queued [0x6F, 0x6B] 1 []).Inv ∧ (queued [0x6F, 0x6B] 1 []).txActive = true ∧
    (queued [0x6F, 0x6B] 1 []).txRd + 1 = (queued [0x6F, 0x6B] 1 []).txLen ∧
    (queued [0x6F, 0x6B] 0 []).Inv ∧
    (queued [0x6F, 0x6B] 0 []).txRd + 1 ≠ (queued [0x6F, 0x6B] 0 []).txLen :=
  ⟨inv_of_check (by decide), rfl, inv_of_check (by decide), rfl, rfl, inv_of_check (by decide),
    by decide⟩

/-- Two bytes behind the one being sent, and none. -/
theorem test_witness_DrainerSendsTheQueueInOrder :
    (queued [0x6F, 0x6B, 0x0A] 0 []).Inv ∧ (queued [0x6F, 0x6B, 0x0A] 0 []).txActive = true ∧
    (queued [0x6F, 0x6B, 0x0A] 0 []).txRd + 1 + (bytes [0x6B, 0x0A]).length =
      (queued [0x6F, 0x6B, 0x0A] 0 []).txLen ∧
    (queued [0x6F, 0x6B, 0x0A] 0 []).holds .txbuf 1 (bytes [0x6B, 0x0A]) ∧
    (queued [0x41] 0 []).Inv ∧ (queued [0x41] 0 []).txRd + 1 + (bytes []).length = 1 :=
  ⟨inv_of_check (by decide), rfl, rfl, by unfold State.holds; decide, inv_of_check (by decide), rfl⟩

theorem test_witness_WrittenByteIsReadBack :
    47 < Params.cap Params.t0 .rxbuf ∧ Params.cap Params.t0 .rxbuf ≤ 48 ∧
    16 < Params.cap Params.t0 .rftx ∧ Params.cap Params.t0 .rftx ≤ 17 ∧
    Memory.wf (held [1, 2]) = true := by decide

/-- The least and the greatest parameters that are legal. -/
theorem test_witness_InvariantsHoldAfterReset :
    ({ maxPay := 2, txCap := 1, rfRxCap := 5, numCap := 1, flushMs := 1, tmrMax := 1, pollCap := 1,
       regRxCount := 0#8 } : Params).wellFormed = true ∧
    ({ Params.t0 with maxPay := 252, rfRxCap := 255, tmrMax := 255 } : Params).wellFormed = true := by
  decide

/-- `EveryStepKeepsTheInvariants`, `NoStepStops`, `RegistersFitTheirWidths` and the statements about
every operation: a state with the invariants from which a step and each operation go on. -/
theorem test_witness_every_operation :
    (received [0x68, 0x69, 0x0A] 3 false).Inv ∧
    (∃ t, step (received [0x68, 0x69, 0x0A] 3 false) = .next t ∧ t.linkState = .transmitting) ∧
    (∃ t, exec .step (received [0x68, 0x69, 0x0A] 3 false) = .next t) ∧
    (∃ t, exec (.rxb 0x0A#8) (received [0x68, 0x69, 0x0A] 3 false) = .next t) ∧
    (∃ t, exec .tmr (received [0x68, 0x69, 0x0A] 3 false) = .next t) ∧
    (∃ t, exec .txd (received [0x68, 0x69, 0x0A] 3 false) = .next t) :=
  ⟨inv_of_check (by decide), ⟨_, rfl, rfl⟩, ⟨_, rfl⟩, ⟨_, rfl⟩, ⟨_, rfl⟩, ⟨_, rfl⟩⟩

/-- `OperationsWriteOnlyTheirColumns`, a state that goes on for each column but `RXB`'s. -/
theorem test_witness_OperationsWriteOnlyTheirColumns :
    (∃ t, exec .tmr longest = .next t) ∧
    (∃ t, exec .txd (queued [1] 0 []) = .next t) ∧
    (∃ t, exec .pkt { listening [] with linkState := .transmitting } = .next t) ∧
    (∃ t, exec .pkt State.reset = .next t) ∧
    (∃ t, exec .step State.reset = .next t) ∧
    (∃ t, exec .step (polling 0 [0x00]) = .next t) ∧
    ∃ t, exec .step { listening [] with wake := true } = .next t :=
  ⟨⟨_, rfl⟩, ⟨_, rfl⟩, ⟨_, rfl⟩, ⟨_, rfl⟩, ⟨_, rfl⟩, ⟨_, rfl⟩, ⟨_, rfl⟩⟩

/-- The column `RXB`: the last byte there is room for, with the first byte beyond the one stored,
and a full buffer, where no byte may change. -/
theorem test_witness_RxbStoresOneByte :
    (∃ t, exec (.rxb 0x41#8) (received (letters 47) 0 false) = .next t) ∧
    ¬ ((received (letters 47) 0 false).rxLen < 3 * Params.t0.maxPay ∧
      46 = (received (letters 47) 0 false).rxLen) ∧
    (∃ t, exec (.rxb 0x41#8) (received (letters 48) 0 false) = .next t) ∧
    ¬ ((received (letters 48) 0 false).rxLen < 3 * Params.t0.maxPay ∧
      48 = (received (letters 48) 0 false).rxLen) :=
  ⟨⟨_, rfl⟩, by decide, ⟨_, rfl⟩, by decide⟩

/-- The column `PKT + VALIDATE`: the least count, with the first index it leaves alone, and a packet
that is not read. -/
theorem test_witness_ValidateStoresOnly :
    (∃ t, exec .pkt (listening [0x00, 5, 2, 0x41, 0x0A, 0x00, 0x80]) = .next t ∧
      t.txLen = 2 + 6) ∧
    (listening [0x00, 5, 2, 0x41, 0x0A, 0x00, 0x80]).readsPacket 5 ∧
    (∀ n, (listening [0x00, 5, 2, 0x41, 0x0A, 0x00, 0x80]).readsPacket n → n ≤ 5) ∧
    (∃ t, exec .pkt (listening [0x10]) = .next t) ∧
    ∀ n, ¬ (listening [0x10]).readsPacket n :=
  ⟨⟨_, rfl, by decide⟩, by unfold State.readsPacket; decide, fun _ h => Nat.le_of_eq h.2.1,
    ⟨_, rfl⟩, fun _ h => absurd h.1 (by decide)⟩

/-- The column `STEP POST + DISPATCH`: the longest frame, with the first index of `RFTX` and of
`RXBUF` that it leaves alone, and a frame one byte too long, which is not sent. -/
theorem test_witness_PostStoresOnly :
    ((∃ t, exec .step longest = .next t) ∧ longest.sends 16 ∧
      (∀ flen, longest.sends flen → flen < 17) ∧
      ∀ flen, longest.sends flen → longest.rxLen - flen ≤ 1) ∧
    (∃ t, exec .step (received (letters 17) 17 true) = .next t) ∧
    ∀ flen, ¬ (received (letters 17) 17 true).sends flen := by
  have hf : longest.frameLen 16 := .inr ⟨rfl, 15, ⟨by decide, rfl, by decide⟩, rfl⟩
  have h16 (flen : Nat) (h : longest.sends flen) : flen = 16 := frameLen_unique h.2.2.1 hf
  refine ⟨⟨⟨_, rfl⟩, ⟨by decide, by decide, hf, by decide, by decide⟩,
    fun flen h => by rw [h16 flen h]; decide, fun flen h => by rw [h16 flen h]; decide⟩,
    ⟨_, rfl⟩, fun flen h => ?_⟩
  have h17 : flen = 17 := frameLen_unique h.2.2.1 (.inl ⟨rfl, rfl⟩)
  exact absurd (h17 ▸ h.2.2.2.2) (by decide)

/-- `LinkStateMovesOnlyAlongItsTable` and `AtMostOneFrameInFlight`, by each edge: Idle to
Listening, Transmitting kept by an `RXB`, and Listening to Idle. -/
theorem test_witness_link_state_edges :
    (polling 0 [0x00]).Inv ∧
    (∃ t, exec .step (polling 0 [0x00]) = .next t ∧ t.linkState = .listening) ∧
    { listening [] with linkState := .transmitting }.Inv ∧
    (∃ t, exec (.rxb 0x41#8) { listening [] with linkState := .transmitting } = .next t) ∧
    (listening [0x50]).Inv ∧ (∃ t, exec .pkt (listening [0x50]) = .next t ∧ t.linkState = .idle) :=
  ⟨inv_of_check (by decide), ⟨_, rfl, rfl⟩, inv_of_check (by decide), ⟨_, rfl⟩,
    inv_of_check (by decide), ⟨_, rfl, rfl⟩⟩

/-- `LinkErrorFlagIsNeverLost`: L3 clears it, L8 and V3 set it. -/
theorem test_witness_LinkErrorFlagIsNeverLost :
    (∃ t, exec .step { State.reset with linkErr := true } = .next t ∧ t.linkErr = false) ∧
    (∃ t, exec .step (polling 3 [0x10]) = .next t ∧ t.linkErr = true) ∧
    (∃ t, exec .pkt (listening [0x00, 4]) = .next t ∧ t.linkErr = true) ∧
    (polling 3 [0x10]).linkErr = false ∧ (listening [0x00, 4]).linkErr = false :=
  ⟨⟨_, rfl, rfl⟩, ⟨_, rfl, rfl⟩, ⟨_, rfl, rfl⟩, rfl, rfl⟩

theorem test_witness_QuiescentBlockStaysAsItIs :
    (listening []).cfg.wellFormed = true ∧ (listening []).quiescent :=
  ⟨by decide, rfl, rfl, rfl, rfl⟩

/-- A `TXD` that sends, one that ends the queue, each before a `STEP` that dispatches. -/
theorem test_witness_TxdAndStepCommute :
    ({ received [0x0A] 1 false with txbuf := held [1, 2], txLen := 2, txActive := true }).Inv ∧
    (∃ a b, exec .txd { received [0x0A] 1 false with
        txbuf := held [1, 2], txLen := 2, txActive := true } = .next a ∧
      a.txRd = 1 ∧ exec .step a = .next b ∧ b.linkState = .transmitting) ∧
    ({ received [0x0A] 1 false with txbuf := held [1], txLen := 1, txActive := true }).Inv ∧
    ∃ a b, exec .txd { received [0x0A] 1 false with
        txbuf := held [1], txLen := 1, txActive := true } = .next a ∧
      a.txLen = 0 ∧ exec .step a = .next b ∧ b.linkState = .transmitting :=
  ⟨inv_of_check (by decide), ⟨_, _, rfl, rfl, rfl, rfl⟩, inv_of_check (by decide),
    _, _, rfl, rfl, rfl, rfl⟩

end Sys2Proof.Slice0Tests
end

section
/-! PROOFS. The event word (30_encoding.md R91, R92, R94): its two fields, what the decoder accepts
and refuses, the rows the words select, and the step that takes a reserved word. -/

namespace Sys2Proof

/-! ## The fields of a word -/

@[simp] theorem evOp_append (op : BitVec 4) (d : Byte) : evOp (op ++ d) = op :=
  BitVec.extractLsb'_append_eq_left

@[simp] theorem evData_append (op : BitVec 4) (d : Byte) : evData (op ++ d) = d :=
  BitVec.extractLsb'_append_eq_right

theorem evOp_append_evData (w : EventWord) : evOp w ++ evData w = w :=
  BitVec.extractLsb'_append_extractLsb'

theorem eventWord_eq_append_iff {w : EventWord} {op : BitVec 4} {d : Byte} :
    w = op ++ d ↔ evOp w = op ∧ evData w = d := by
  constructor
  · rintro rfl
    exact ⟨evOp_append op d, evData_append op d⟩
  · rintro ⟨rfl, rfl⟩
    exact (evOp_append_evData w).symm

/-- The mask of a row with an operand looks at `OP` alone. -/
theorem and_opMask_eq_iff {w : EventWord} {op : BitVec 4} :
    w &&& 0xF00#12 = op ++ 0x00#8 ↔ evOp w = op := by
  have hmasked : w &&& 0xF00#12 = evOp w ++ 0x00#8 := calc
    w &&& 0xF00#12 = (evOp w ++ evData w) &&& (0xF#4 ++ 0x00#8) := by
      rw [evOp_append_evData]; rfl
    _ = (evOp w &&& BitVec.allOnes 4) ++ (evData w &&& 0x00#8) := BitVec.and_append
    _ = evOp w ++ 0x00#8 := by rw [BitVec.and_allOnes, BitVec.and_zero]
  rw [hmasked, eventWord_eq_append_iff, evOp_append, evData_append]
  simp

/-- The mask of a row without an operand looks at the whole word. -/
theorem and_fullMask (w : EventWord) : w &&& 0xFFF#12 = w := BitVec.and_allOnes

/-! ## What the decoder accepts -/

theorem decodeBare_eq_ok_iff {w : EventWord} {i j : Instr} :
    decodeBare w i = .ok j ↔ evData w = 0x00#8 ∧ i = j := by
  unfold decodeBare
  split <;> simp [*]

theorem decode_encode (i : Instr) : decode (encode i) = .ok i := by
  cases i with
  | rxb b => simp [decode, encode]
  | step | tmr | txd | pkt => rfl

theorem eq_encode_of_decodeBare {w : EventWord} {i j : Instr} {op : BitVec 4} (hop : evOp w = op)
    (hi : encode i = op ++ 0x00#8) (h : decodeBare w i = .ok j) : w = encode j := by
  obtain ⟨hdata, rfl⟩ := decodeBare_eq_ok_iff.mp h
  exact hi ▸ eventWord_eq_append_iff.mpr ⟨hop, hdata⟩

theorem eq_encode_of_decode {w : EventWord} {i : Instr} (h : decode w = .ok i) :
    w = encode i := by
  unfold decode at h
  split_ifs at h with hstep hrxb htmr htxd hpkt
  · exact eq_encode_of_decodeBare hstep rfl h
  · cases h
    exact eventWord_eq_append_iff.mpr ⟨hrxb, rfl⟩
  · exact eq_encode_of_decodeBare htmr rfl h
  · exact eq_encode_of_decodeBare htxd rfl h
  · exact eq_encode_of_decodeBare hpkt rfl h

theorem decode_eq_ok_iff {w : EventWord} {i : Instr} : decode w = .ok i ↔ w = encode i :=
  ⟨eq_encode_of_decode, fun h => h ▸ decode_encode i⟩

theorem decode_eq_ok_iff_fullMask {w : EventWord} {i : Instr} :
    decode w = .ok i ↔ w &&& 0xFFF#12 = encode i := by
  rw [and_fullMask, decode_eq_ok_iff]

theorem decode_eq_ok_rxb_iff {w : EventWord} {b : Byte} :
    decode w = .ok (.rxb b) ↔ w &&& 0xF00#12 = 0x100#12 ∧ b = evData w := calc
  decode w = .ok (.rxb b) ↔ w = 0x1#4 ++ b := decode_eq_ok_iff
  _ ↔ evOp w = 0x1#4 ∧ evData w = b := eventWord_eq_append_iff
  _ ↔ w &&& 0xF00#12 = 0x1#4 ++ 0x00#8 ∧ b = evData w :=
    and_congr and_opMask_eq_iff.symm eq_comm

/-- Settles O2: the decoder accepts exactly the encodings, and each row's mask compares the fields
its encoding fixes. -/
theorem decodeSelectsTheTableRow : Obligations.DecodeSelectsTheTableRow := by
  unfold Obligations.DecodeSelectsTheTableRow
  intro w
  exact ⟨decode_eq_ok_iff_fullMask, fun _ => decode_eq_ok_rxb_iff, decode_eq_ok_iff_fullMask,
    decode_eq_ok_iff_fullMask, decode_eq_ok_iff_fullMask⟩

/-! ## What the decoder refuses -/

/-- The first reserved shape of 30_encoding.md R94. -/
theorem decode_reservedOp {w : EventWord} (h : 5 ≤ (evOp w).toNat) :
    decode w = .error (.reservedOp (evOp w)) := by
  have hne {c : BitVec 4} (hc : c.toNat < 5) : evOp w ≠ c := by
    rintro rfl
    omega
  unfold decode
  rw [if_neg (hne (by decide)), if_neg (hne (by decide)), if_neg (hne (by decide)),
    if_neg (hne (by decide)), if_neg (hne (by decide))]

/-- The second reserved shape of 30_encoding.md R94. -/
theorem decode_reservedData {w : EventWord}
    (hop : evOp w = 0x0#4 ∨ evOp w = 0x2#4 ∨ evOp w = 0x3#4 ∨ evOp w = 0x4#4)
    (hdata : evData w ≠ 0x00#8) : decode w = .error (.reservedData (evOp w) (evData w)) := by
  have hbare (i : Instr) : decodeBare w i = .error (.reservedData (evOp w) (evData w)) :=
    if_neg hdata
  unfold decode
  obtain h | h | h | h := hop <;> simp [h, hbare]

end Sys2Proof

namespace Sys2Proof.Machine

/-! ## Taking a reserved word -/

theorem fetch_of_decode_error {s : State} {w : EventWord} {rest : List Input} {e : DecodeError}
    (hin : s.inputs = .event w :: rest) (he : decode w = .error e) : fetch s = .ignore e := by
  simp [fetch, hin, he]

theorem takeInput_of_cons {s : State} {i : Input} {rest : List Input}
    (hin : s.inputs = i :: rest) : takeInput s = { s with inputs := rest } := by
  simp [takeInput, hin]

theorem step_of_decode_error {s : State} {w : EventWord} {rest : List Input} {e : DecodeError}
    (hcfg : s.cfg.wellFormed = true) (hin : s.inputs = .event w :: rest)
    (he : decode w = .error e) : step s = .next { s with inputs := rest } := by
  simp [step, hcfg, fetch_of_decode_error hin he, takeInput_of_cons hin]

/-- Settles O7: the decoder refuses both reserved shapes, and the step of a refused word only takes
it from the port. -/
theorem reservedEventWordsAreIgnored : Obligations.ReservedEventWordsAreIgnored := by
  unfold Obligations.ReservedEventWordsAreIgnored
  intro s w rest hcfg hin hreserved
  obtain hop | ⟨hop, hdata⟩ := hreserved
  · exact step_of_decode_error hcfg hin (decode_reservedOp hop)
  · exact step_of_decode_error hcfg hin (decode_reservedData hop hdata)

end Sys2Proof.Machine
end

section
/-! PROOFS. The Serial Receive Framer (40_serial_framer.md): what `TMR` marks, and what `RXB`
appends, marks and arms. -/

namespace Sys2Proof.Machine

/-! ## TMR -/

theorem exec_tmr_nonempty {s : State} (h : 0 < s.rxLen) : exec .tmr s =
    .next { s with tmrArmed := false, pendCnt := s.rxLen, pendTo := true, wake := true } :=
  if_pos h

theorem exec_tmr_empty {s : State} (h : ¬ 0 < s.rxLen) :
    exec .tmr s = .next { s with tmrArmed := false } :=
  if_neg h

/-- Settles O12: one case with bytes to mark, one with none. -/
theorem tmrMarksTheWholeBuffer : Obligations.TmrMarksTheWholeBuffer := by
  unfold Obligations.TmrMarksTheWholeBuffer
  intro s
  split
  · exact exec_tmr_nonempty ‹_›
  · exact exec_tmr_empty ‹_›

/-! ## RXB -/

/-- Steps 2 and 3 of `RXB` touch no buffer. -/
@[simp] theorem rxbMark_rxbDisarm_byteAt (s : State) (b : Byte) (buf : Buf) (i : Nat) :
    (rxbMark (rxbDisarm s) b).byteAt buf i = s.byteAt buf i := by
  rw [rxbMark_rxbDisarm]
  cases buf <;> rfl

/-- Step 1 of `RXB` with both its outcomes in one state: `m` is the receive buffer's contents after
it, changed only at the end of the valid bytes and only where there is room. -/
theorem exec_rxb_appends (s : State) (b : Byte) : ∃ m : Memory,
    exec (.rxb b) s = .next (rxbMark (rxbDisarm { s with
      rxbuf := m,
      rxLen := if s.rxLen < s.cfg.c then s.rxLen + 1 else s.rxLen,
      outputs := s.outputs ++
        if s.rxLen < s.cfg.c then [] else [errorOut .receiveBufferOverflow b] }) b) ∧
    (s.rxLen < s.cfg.c → Memory.read m s.rxLen = some b) ∧
    ∀ i, ¬ (s.rxLen < s.cfg.c ∧ i = s.rxLen) → Memory.read m i = Memory.read s.rxbuf i := by
  by_cases hroom : s.rxLen < s.cfg.c
  · refine ⟨Memory.write s.rxbuf s.rxLen b, ?_, fun _ => read_write_same _ _ _, fun i hi => ?_⟩
    · simpa [hroom] using exec_rxb_room hroom
    · exact read_write_other _ _ fun h => hi ⟨hroom, h⟩
  · refine ⟨s.rxbuf, ?_, fun h => absurd h hroom, fun _ _ => rfl⟩
    simpa [hroom, raise] using exec_rxb_full hroom

/-- Settles O11: step 1 changes the receive buffer alone, and steps 2 and 3 no buffer. -/
theorem rxbAppendsAndMarksOrArms : Obligations.RxbAppendsAndMarksOrArms := by
  unfold Obligations.RxbAppendsAndMarksOrArms
  intro s b
  obtain ⟨m, hexec, happended, hframe⟩ := exec_rxb_appends s b
  refine ⟨_, hexec, ?_, fun hroom => ?_, fun buf i hne => ?_⟩
  · rw [rxbMark_rxbDisarm]
    rfl
  · rw [rxbMark_rxbDisarm_byteAt]
    exact happended hroom
  · rw [rxbMark_rxbDisarm_byteAt]
    cases buf with
    | rxbuf => exact hframe i fun ⟨hroom, hi⟩ => hne ⟨rfl, hroom, hi⟩
    | txbuf | rftx | rfrx => rfl

end Sys2Proof.Machine
end

section
/-! PROOFS. The Outbound Dispatcher (41_outbound_dispatcher.md): the delimiter search, and what a
`STEP` in phase `POST` does with a frame it can send and with one it cannot. -/

namespace Sys2Proof.Machine

/-! ## The frame length -/

/-- Without a timeout the frame ends with the first delimiter of the window. -/
theorem frameLen_iff_firstDelim {s : State} {flen : Nat} (hto : s.pendTo = false) :
    s.frameLen flen ↔ ∃ i, s.firstDelim (min s.pendCnt s.rxLen) i ∧ flen = i + 1 := by
  simp [State.frameLen, hto]

theorem frameLength_eq_some_iff {s t : State} {r : Option Nat} (h : frameLength s = .ok (r, t))
    (flen : Nat) : r = some flen ↔ s.frameLen flen := by
  obtain ⟨-, hsome, hnone⟩ := frameLength_eq_ok h
  refine ⟨hsome flen, fun hf => ?_⟩
  cases r with
  | none =>
    obtain ⟨hto, hno⟩ := hnone rfl
    exact absurd hno (frameLen_not_noDelim hf hto)
  | some g => rw [frameLen_unique hf (hsome g rfl)]

/-- Settles O16: the search answers the state's frame length, which without a timeout is the end of
the first delimiter. -/
theorem scanFindsTheLeastDelimiterOfTheWindow :
    Obligations.ScanFindsTheLeastDelimiterOfTheWindow := by
  unfold Obligations.ScanFindsTheLeastDelimiterOfTheWindow
  intro s hinv hto
  obtain ⟨r, t, h⟩ := frameLength_written hinv.rxLenLe hinv.rxWritten
  have hkept : t = s := by
    rw [(frameLength_eq_ok h).1, ← hto]
  subst hkept
  refine ⟨r, h, fun flen => ?_⟩
  rw [frameLength_eq_some_iff h, frameLen_iff_firstDelim hto]
  exact exists_congr fun i => and_comm

/-- A marker over valid bytes never marks an empty frame (92_eei_decisions.md D12). -/
theorem frameLen_ne_zero {s : State} {flen : Nat} (hinv : s.Inv) (hm : s.pendCnt ≠ 0)
    (hf : s.frameLen flen) : flen ≠ 0 := by
  obtain ⟨-, rfl⟩ | ⟨-, i, -, rfl⟩ := hf
  · exact hinv.markedBytes hm
  · exact Nat.succ_ne_zero i

/-! ## `STEP` in phase `POST` -/

theorem exec_post_of_dispatch {s u : State} {r : DispatchResult} (hp : s.seq = .post)
    (hl : s.linkState ≠ .transmitting) (hm : s.pendCnt ≠ 0) (h : dispatch s = .ok (r, u)) :
    exec .step s = .next { u with seq := .top } :=
  (exec_post_eq_next hp).2 (.inr ⟨hl, hm, r, u, h, rfl⟩)

/-- Settles O18: `DISPATCH` sends the frame, and steps 4 to 6 start from the state with the critical
section entered and the timeout indicator cleared. -/
theorem postSendsTheFrameVerbatim : Obligations.PostSendsTheFrameVerbatim := by
  unfold Obligations.PostSendsTheFrameVerbatim
  intro s flen hinv hp hl hm hf hle
  obtain ⟨u, hd, hsend⟩ := dispatch_sends hinv.rxLenLe hinv.rxWritten hm hf
    (frameLen_ne_zero hinv hm hf) hle
  obtain ⟨frame, hlen, hheld, hu, hrftx, hrftxFrame, hmoved, hrxFrame, -⟩ := sendFrame_eq_ok hsend
  refine ⟨{ u with seq := .top }, frame, exec_post_of_dispatch hp hl hm hd, hlen, hheld, ?_, hrftx,
    hrftxFrame, hmoved, hrxFrame⟩
  have hto : (dispatchReady s).pendTo = false := rfl
  have hsection : (dispatchReady s).outputs ++ [commandOut (.srxie true)] =
      s.outputs ++ [commandOut (.srxie false), commandOut (.srxie true)] :=
    List.append_assoc s.outputs _ _
  rw [hto, ite_self, hsection] at hu
  rw [hu]
  rfl

/-! ## The Invalid path -/

theorem dispatchInvalid_dispatchReady (s : State) (info : Byte) :
    dispatchInvalid (dispatchReady s) info = { s with
      pendCnt := 0, pendTo := false, rxLen := 0,
      outputs := s.outputs ++ [commandOut (.srxie false), errorOut .malformedFrame info,
        commandOut (.srxie true)] } := by
  simp [dispatchInvalid, dispatchReady, emit, raise]

/-- What `POST` does where `DISPATCH` answers `Invalid`, whatever the information byte
(41_outbound_dispatcher.md R146). -/
theorem exec_post_of_invalid {s : State} {info : Byte} (hp : s.seq = .post)
    (hl : s.linkState ≠ .transmitting) (hm : s.pendCnt ≠ 0)
    (h : dispatch s = .ok (.invalid, dispatchInvalid (dispatchReady s) info)) :
    exec .step s = .next { s with
      pendCnt := 0, pendTo := false, rxLen := 0, seq := .top,
      outputs := s.outputs ++ [commandOut (.srxie false), errorOut .malformedFrame info,
        commandOut (.srxie true)] } := by
  rw [exec_post_of_dispatch hp hl hm h, dispatchInvalid_dispatchReady]

/-- Settles O19: each of the three reasons makes `DISPATCH` answer `Invalid`, with its information
byte. -/
theorem invalidFrameResetsTheReceiveBuffer : Obligations.InvalidFrameResetsTheReceiveBuffer := by
  unfold Obligations.InvalidFrameResetsTheReceiveBuffer
  intro s hc hw hp hl hm
  obtain ⟨hnoDelim, hzero, hguard⟩ := dispatch_rejects hc hw hm
  exact ⟨fun hto hno => exec_post_of_invalid hp hl hm (hnoDelim hto hno),
    fun hf => exec_post_of_invalid hp hl hm (hzero hf),
    fun flen hf hlong hne => exec_post_of_invalid hp hl hm (hguard flen hf hlong hne)⟩

end Sys2Proof.Machine
end

section
/-! PROOFS. The radio link state machine and the main-loop sequencer (42_link_state_machine.md):
`STEP` by phase, `PKT` by link state, and what the operations do to the wake latch and the
indicator. -/

namespace Sys2Proof.Machine

/-! ## `STEP` in phases `TOP`, `POLL` and `WAIT` -/

theorem exec_top {s : State} (hp : s.seq = .top) : exec .step s = .next (stepTop s) := by
  simp [exec, execStep, hp]

theorem exec_poll {s : State} (hp : s.seq = .poll) : exec .step s = .next (stepPoll s) := by
  simp [exec, execStep, hp]

theorem exec_wait {s : State} (hp : s.seq = .wait) : exec .step s = .next (stepWait s) := by
  simp [exec, execStep, hp]

theorem reinitIfError_eq (s : State) : reinitIfError s = { s with
    linkErr := false,
    outputs := s.outputs ++ (if s.linkErr then [commandOut .rreinit] else []) } := by
  unfold reinitIfError
  split
  · simp [emit, *]
  · cases s
    simp_all

/-- `TOP` of an Idle link (42_link_state_machine.md R164). -/
theorem stepTop_idle {s : State} (hl : s.linkState = .idle) : stepTop s = { s with
    ind := !s.ind, linkErr := false, pollK := 0, seq := .poll,
    outputs := s.outputs ++ [commandOut (.rstrobe .sidle)] ++
      (if s.linkErr then [commandOut .rreinit] else []) } := by
  unfold stepTop
  rw [if_pos hl, reinitIfError_eq]
  rfl

theorem stepTop_not_idle {s : State} (hl : s.linkState ≠ .idle) :
    stepTop s = { s with ind := !s.ind, seq := .wait } :=
  if_neg hl

/-- Settles O20: one case for the Idle link, one for the other two. -/
theorem topTogglesAndLeavesIdleThroughPolling :
    Obligations.TopTogglesAndLeavesIdleThroughPolling := by
  unfold Obligations.TopTogglesAndLeavesIdleThroughPolling
  intro s hp
  rw [exec_top hp]
  split
  · rw [stepTop_idle ‹_›]
  · rw [stepTop_not_idle ‹_›]

/-- `TOP` inverts the indicator, whatever the link state. -/
theorem stepTop_ind (s : State) : (stepTop s).ind = !s.ind := by
  by_cases hl : s.linkState = .idle
  · rw [stepTop_idle hl]
  · rw [stepTop_not_idle hl]

theorem stepTop_wake (s : State) : (stepTop s).wake = s.wake := by
  by_cases hl : s.linkState = .idle
  · rw [stepTop_idle hl]
  · rw [stepTop_not_idle hl]

/-- `POLL` as the poll and the two answers to it (42_link_state_machine.md R165, R166). -/
theorem stepPoll_eq (s : State) : stepPoll s =
    if statusIdle (statusByte s) then
      { emit (statusAsked s) (.rstrobe .srx) with linkState := .listening, seq := .wait }
    else pollFailed (statusAsked s) (statusByte s) := rfl

/-- Settles O21: the status byte was asked for, and its `STATE` field is 0. -/
theorem pollAnsweredIdleStartsListening : Obligations.PollAnsweredIdleStartsListening := by
  unfold Obligations.PollAnsweredIdleStartsListening
  intro s hp hidle
  rw [exec_poll hp, stepPoll_eq, if_pos ((statusIdle_iff (statusByte s)).2 hidle), statusAsked_eq]
  simp [emit]

theorem pollFailed_eq (s : State) (st : Byte) : pollFailed s st =
    if pollAgain s then { s with pollK := s.pollK + 1 }
    else { s with linkErr := true, seq := .top,
                  outputs := s.outputs ++ [errorOut .radioIdleTimeout st] } := rfl

/-- The column of `POLL`, with either answer (10_state.md R55). -/
theorem stepPoll_frame (s : State) : stepPoll s = { s with
    linkState := (stepPoll s).linkState, linkErr := (stepPoll s).linkErr,
    seq := (stepPoll s).seq, pollK := (stepPoll s).pollK,
    responses := (stepPoll s).responses, freeIdx := (stepPoll s).freeIdx,
    outputs := (stepPoll s).outputs } := by
  obtain ⟨r, k, hd⟩ := dropResponses_eq s 1
  have hasked : statusAsked s = { s with
      responses := r, freeIdx := k,
      outputs := s.outputs ++ [commandOut (.rstrobe .snop)] } := by
    rw [statusAsked_eq, show dropResponse s = _ from hd]
  rw [stepPoll_eq, hasked]
  split
  · rfl
  · rw [pollFailed_eq]
    split <;> rfl

theorem stepWait_eq (s : State) :
    stepWait s = if s.wake then { s with wake := false, seq := .post } else s := rfl

/-! ## `STEP` in phase `POST` -/

/-- Settles O17: `POST` with and without `DISPATCH`; of its answer only the state is used. -/
theorem postRunsDispatchExactlyWhenAllowed : Obligations.PostRunsDispatchExactlyWhenAllowed := by
  unfold Obligations.PostRunsDispatchExactlyWhenAllowed
  intro s hp
  exact ⟨fun r t hl hm hd => exec_post_of_dispatch hp hl hm hd,
    fun hnot => (exec_post_eq_next hp).2 (.inl ⟨hnot, rfl⟩)⟩

/-- The column of `DISPATCH` (10_state.md R55). -/
theorem dispatch_frame {s t : State} {r : DispatchResult} (h : dispatch s = .ok (r, t)) :
    t = { s with
      rxbuf := t.rxbuf, rftx := t.rftx, rxLen := t.rxLen, pendCnt := t.pendCnt, pendTo := t.pendTo,
      linkState := t.linkState, ind := t.ind, outputs := t.outputs } := by
  obtain ⟨-, -, rfl⟩ | ⟨-, -, info, rfl, -⟩ | ⟨-, flen, -, -, -, -, hs⟩ := dispatch_eq_ok h
  · rfl
  · rfl
  · obtain ⟨frame, -, -, ht, -⟩ := sendFrame_eq_ok hs
    rw [ht]
    rfl

/-- `DISPATCH` turns the indicator on exactly where it starts a transmission, and otherwise leaves
the link and the indicator alone (41_outbound_dispatcher.md R143). -/
theorem dispatch_link {s t : State} {r : DispatchResult} (h : dispatch s = .ok (r, t)) :
    (t.linkState = s.linkState ∧ t.ind = s.ind) ∨ (t.linkState = .transmitting ∧ t.ind = true) := by
  obtain ⟨-, -, rfl⟩ | ⟨-, -, info, rfl, -⟩ | ⟨-, flen, -, -, -, -, hs⟩ := dispatch_eq_ok h
  · exact .inl ⟨rfl, rfl⟩
  · exact .inl ⟨rfl, rfl⟩
  · obtain ⟨frame, -, -, ht, -⟩ := sendFrame_eq_ok hs
    exact .inr ⟨congrArg State.linkState ht, congrArg State.ind ht⟩

theorem exec_post_wake {s t : State} (hp : s.seq = .post) (h : exec .step s = .next t) :
    t.wake = s.wake := by
  obtain ⟨-, rfl⟩ | ⟨-, -, r, u, hd, rfl⟩ := (exec_post_eq_next hp).1 h
  · rfl
  · show u.wake = s.wake
    rw [dispatch_frame hd]

theorem exec_post_link {s t : State} (hp : s.seq = .post) (h : exec .step s = .next t) :
    (t.linkState = s.linkState ∧ t.ind = s.ind) ∨
      (s.linkState ≠ .transmitting ∧ t.linkState = .transmitting ∧ t.ind = true) := by
  obtain ⟨-, rfl⟩ | ⟨hl, -, r, u, hd, rfl⟩ := (exec_post_eq_next hp).1 h
  · exact .inl ⟨rfl, rfl⟩
  · obtain hkept | hsent := dispatch_link hd
    · exact .inl hkept
    · exact .inr ⟨hl, hsent⟩

/-! ## `PKT` -/

theorem exec_pkt_transmitting {s : State} (hl : s.linkState = .transmitting) :
    exec .pkt s = .next { s with linkState := .idle, ind := false, wake := true } := by
  simp [exec, execPkt, packetBoundary, hl]

theorem exec_pkt_idle {s : State} (hl : s.linkState = .idle) :
    exec .pkt s = .next { s with wake := true } := by
  simp [exec, execPkt, packetBoundary, hl]

/-- Settles O25: the Transmitting arm of `PKT`, then the wake latch (42_link_state_machine.md
R172). -/
theorem pktEndsATransmission : Obligations.PktEndsATransmission := by
  unfold Obligations.PktEndsATransmission
  exact fun s => exec_pkt_transmitting

/-- Settles O26: the Idle arm of `PKT` does nothing, so the wake latch is all that is written. -/
theorem pktWhileIdleOnlyWakes : Obligations.PktWhileIdleOnlyWakes := by
  unfold Obligations.PktWhileIdleOnlyWakes
  exact fun s => exec_pkt_idle

/-- Step 3 of `VALIDATE` changes the Radio Receive Frame and the ports only. -/
theorem PacketRead.frameOnly {s u : State} {nb : Byte} (h : PacketRead s u nb) : u = { s with
    rfrx := u.rfrx, rfrxLen := u.rfrxLen,
    responses := u.responses, freeIdx := u.freeIdx, outputs := u.outputs } := by
  obtain ⟨r, k, hd⟩ := dropResponses_eq s (nb.toNat + 2)
  rw [h.eq, hd]

theorem PacketRead.written {s u : State} {nb : Byte} (h : PacketRead s u nb) :
    u.written .rfrx nb.toNat := by
  intro i hi
  have hlen : i < (nextResponses (dropResponses s 2) nb.toNat).length := by simpa using hi
  have hbyte := h.frame i hlen
  rw [Nat.zero_add, List.getElem?_eq_getElem hlen] at hbyte
  rw [hbyte]
  rfl

/-- The column of `VALIDATE`, whatever its result (10_state.md R55; 43_packet_validator.md R192 for
`rfrx_len`). -/
theorem validate_frame {s t : State} {r : ValidateResult} (h : validate s = .ok (r, t)) :
    t = { s with
      txbuf := t.txbuf, txLen := t.txLen, txActive := t.txActive, rfrx := t.rfrx, rfrxLen := 0,
      linkErr := t.linkErr,
      responses := t.responses, freeIdx := t.freeIdx, outputs := t.outputs } := by
  obtain ⟨-, -, ht⟩ | ⟨-, -, e, -, ht⟩ | ⟨-, -, -, u, hu, hc⟩ := validate_eq_ok h
  · obtain ⟨_, _, hd⟩ := dropResponses_eq s 1
    rw [ht, show dropResponse s = _ from hd]
  · obtain ⟨_, _, hd⟩ := dropResponses_eq s 2
    rw [ht, hd]
  · have hread := hu.frameOnly
    obtain ⟨q, -, ⟨-, -, ht⟩ | ⟨-, -, -, ht⟩ | ⟨-, -, hf⟩⟩ := checkPacket_eq_ok hc
    · rw [ht, hread]
      rfl
    · rw [ht, hread]
      rfl
    · obtain ⟨_, _, _, _, _, -, -, -, -, -, ht, -⟩ := forwardPacket_eq_ok hf
      rw [ht, hread]

/-- Gates 4 and 5 and the forwarding answer for a frame that has been read. A drainer that is not
active has an empty queue (10_state.md R50), so the byte it is handed is the payload's first. -/
theorem checkPacket_written {s : State} {n : Nat} (h5 : 5 ≤ n) (hn : n ≤ s.cfg.rfRxCap)
    (hw : s.written .rfrx n) (htx : s.txLen ≤ s.cfg.txCap) (hrd : s.txRd ≤ s.txLen)
    (hidle : s.txActive = false → s.txLen = 0) : ∃ r t, checkPacket s n = .ok (r, t) := by
  obtain ⟨q, hq, -⟩ := memRead_written (s := s) (b := .rfrx) (i := n - 1)
    (by simp only [Params.cap]; omega) (hw _ (by omega))
  simp only [checkPacket, hq, ok_bind]
  split
  · split
    · exact ⟨_, _, rfl⟩
    · rename_i hroom
      have hfits : s.txLen + (n - 3) ≤ s.cfg.txCap := by
        rw [txFree] at hroom
        omega
      refine forwardPacket_written h5 hn hfits hw (fun _ => by omega) fun ha i hi => ?_
      have := hidle ha
      omega
  · exact ⟨_, _, rfl⟩

/-- `VALIDATE` never stops under the invariants. -/
theorem validate_answers {s : State} (hinv : s.Inv) : ∃ r t, validate s = .ok (r, t) := by
  by_cases hi : statusIdle (statusByte s) = true
  · by_cases h5 : (countByte s).toNat < 5
    · exact ⟨_, _, by rw [validate_eq, if_pos hi, checkCount, countOperand, if_pos h5]; rfl⟩
    · by_cases hc : (countByte s).toNat ≤ s.cfg.rfRxCap
      · obtain ⟨u, hu, hv⟩ := validate_reads hi (Nat.le_of_not_lt h5) hc
        have hread := hu.frameOnly
        have hcfg : u.cfg = s.cfg := by rw [hread]
        have hlen : u.txLen = s.txLen := by rw [hread]
        have hrd : u.txRd = s.txRd := by rw [hread]
        have hact : u.txActive = s.txActive := by rw [hread]
        rw [hv]
        refine checkPacket_written (Nat.le_of_not_lt h5) (hcfg ▸ hc) hu.written ?_ ?_ fun ha => ?_
        · rw [hlen, hcfg]
          exact hinv.txLenLe
        · rw [hrd, hlen]
          exact hinv.txRdLe
        · rw [hact] at ha
          rw [hlen]
          have := hinv.activeIff.not.1 (by simp [ha])
          omega
      · exact ⟨_, _, by
          rw [validate_eq, if_pos hi, checkCount, countOperand, if_neg h5,
            if_pos (by rw [countAsked_cfg]; omega)]
          rfl⟩
  · exact ⟨_, _, by rw [validate_eq, if_neg hi]⟩

/-- Settles O27: `VALIDATE` answers, and the indicator is outside its column. -/
theorem pktWhileListeningValidatesAndGoesIdle :
    Obligations.PktWhileListeningValidatesAndGoesIdle := by
  unfold Obligations.PktWhileListeningValidatesAndGoesIdle
  intro s hinv hl
  obtain ⟨r, u, hv⟩ := validate_answers hinv
  have hind : u.ind = s.ind := by rw [validate_frame hv]
  exact ⟨r, u, hv, hind, (exec_pkt_listening hl).2 ⟨r, u, hv, rfl⟩⟩

/-- What `PKT` does to the link, the indicator and the wake latch in every link state
(42_link_state_machine.md R172 to R175). -/
theorem exec_pkt_link {s t : State} (h : exec .pkt s = .next t) :
    t.linkState = .idle ∧ t.wake = true ∧
      t.ind = if s.linkState = .transmitting then false else s.ind := by
  cases hl : s.linkState with
  | idle =>
    rw [exec_pkt_idle hl, Host.Outcome.next.injEq] at h
    subst h
    exact ⟨hl, rfl, rfl⟩
  | transmitting =>
    rw [exec_pkt_transmitting hl, Host.Outcome.next.injEq] at h
    subst h
    exact ⟨rfl, rfl, rfl⟩
  | listening =>
    obtain ⟨r, u, hv, rfl⟩ := (exec_pkt_listening hl).1 h
    refine ⟨rfl, rfl, ?_⟩
    show u.ind = s.ind
    rw [validate_frame hv]

/-! ## The serial operations -/

/-- The column of `RXB` (10_state.md R55), with what it does to the wake latch. -/
theorem exec_rxb_frame {s t : State} {b : Byte} (h : exec (.rxb b) s = .next t) : t = { s with
    rxbuf := t.rxbuf, rxLen := t.rxLen, pendCnt := t.pendCnt, tmrArmed := t.tmrArmed,
    wake := if b = Config.delim then true else s.wake, outputs := t.outputs } := by
  obtain ⟨m, hexec, -⟩ := exec_rxb_appends s b
  rw [hexec, Host.Outcome.next.injEq] at h
  rw [← h, rxbMark_rxbDisarm]

/-- The column of `TMR` (10_state.md R55), with what it does to the wake latch. -/
theorem exec_tmr_frame {s t : State} (h : exec .tmr s = .next t) : t = { s with
    pendCnt := t.pendCnt, pendTo := t.pendTo, tmrArmed := false,
    wake := if 0 < s.rxLen then true else s.wake } := by
  by_cases hr : 0 < s.rxLen
  · rw [exec_tmr_nonempty hr, Host.Outcome.next.injEq] at h
    rw [← h, if_pos hr]
  · rw [exec_tmr_empty hr, Host.Outcome.next.injEq] at h
    rw [← h, if_neg hr]

/-- The column of `TXD` (10_state.md R55). -/
theorem exec_txd_frame {s t : State} (h : exec .txd s = .next t) : t = { s with
    txRd := t.txRd, txLen := t.txLen, txActive := t.txActive, outputs := t.outputs } := by
  obtain ⟨-, rfl⟩ | ⟨-, -, rfl⟩ | ⟨-, -, b, -, rfl⟩ := exec_txd_eq_next.1 h <;> rfl

/-! ## The wake latch -/

/-- `STEP` clears the wake latch in phase `WAIT` and keeps it in the other three
(10_state.md R39). -/
theorem exec_step_wake {s t : State} (h : exec .step s = .next t) :
    t.wake = if s.seq = .wait then false else s.wake := by
  cases hp : s.seq with
  | top =>
    rw [exec_top hp, Host.Outcome.next.injEq] at h
    rw [← h]
    exact stepTop_wake s
  | poll =>
    rw [exec_poll hp, Host.Outcome.next.injEq] at h
    rw [← h]
    show (stepPoll s).wake = s.wake
    rw [stepPoll_frame]
  | wait =>
    rw [exec_wait hp, Host.Outcome.next.injEq] at h
    rw [← h, stepWait_eq]
    cases hw : s.wake <;> simp [hw]
  | post => exact exec_post_wake hp h

/-- Settles O24: the latch after each operation, constructor by constructor. -/
theorem onlyTheWakeLatchEndsTheWait : Obligations.OnlyTheWakeLatchEndsTheWait := by
  unfold Obligations.OnlyTheWakeLatchEndsTheWait
  refine ⟨fun s hp => by rw [exec_wait hp, stepWait_eq], fun i s t h => ?_⟩
  cases i with
  | step =>
    rw [exec_step_wake h]
    by_cases hp : s.seq = .wait <;> simp [hp]
  | rxb b =>
    rw [exec_rxb_frame h]
    by_cases hb : b = Config.delim <;> simp [hb]
  | tmr =>
    rw [exec_tmr_frame h]
    by_cases hr : 0 < s.rxLen <;> simp [hr]
  | txd =>
    rw [exec_txd_frame h]
    simp
  | pkt =>
    obtain ⟨-, hwake, -⟩ := exec_pkt_link h
    simp [hwake]

/-! ## The indicator -/

/-- `STEP` inverts the indicator in phase `TOP`, turns it on in phase `POST` where the link goes to
Transmitting, and keeps it otherwise (42_link_state_machine.md R181). -/
theorem exec_step_ind {s t : State} (h : exec .step s = .next t) :
    t.ind = if s.seq = .top then !s.ind
      else if s.seq = .post ∧ s.linkState ≠ .transmitting ∧ t.linkState = .transmitting then true
      else s.ind := by
  cases hp : s.seq with
  | top =>
    rw [exec_top hp, Host.Outcome.next.injEq] at h
    rw [← h]
    exact stepTop_ind s
  | poll =>
    rw [exec_poll hp, Host.Outcome.next.injEq] at h
    have hind : t.ind = s.ind := by rw [← h, stepPoll_frame]
    simpa using hind
  | wait =>
    rw [exec_wait hp, Host.Outcome.next.injEq, stepWait_eq] at h
    have hind : t.ind = s.ind := by rw [← h]; split <;> rfl
    simpa using hind
  | post =>
    obtain ⟨hlink, hind⟩ | ⟨hl, hlink, hind⟩ := exec_post_link hp h
    · rw [hind, hlink]
      simp
    · simp [hind, hlink, hl]

/-- Settles O48: `STEP` and `PKT` write the indicator in their three places, and it is outside the
columns of the serial operations. -/
theorem indicatorIsWrittenInThreePlacesOnly : Obligations.IndicatorIsWrittenInThreePlacesOnly := by
  unfold Obligations.IndicatorIsWrittenInThreePlacesOnly
  intro i s t h
  cases i with
  | step => simpa using exec_step_ind h
  | pkt =>
    obtain ⟨-, -, hind⟩ := exec_pkt_link h
    simpa using hind
  | rxb b =>
    have hind : t.ind = s.ind := by rw [exec_rxb_frame h]
    simpa using hind
  | tmr =>
    have hind : t.ind = s.ind := by rw [exec_tmr_frame h]
    simpa using hind
  | txd =>
    have hind : t.ind = s.ind := by rw [exec_txd_frame h]
    simpa using hind

end Sys2Proof.Machine
end

section
/-! PROOFS. The packet validator (43_packet_validator.md): the gates before the frame is read, and
what forwarding a frame that passes every gate stores and emits. -/

namespace Sys2Proof.Machine

/-- `PKT` while Listening, for a result of `VALIDATE` that is known (42_link_state_machine.md
R174). -/
theorem exec_pkt_of_validate {s u : State} {r : ValidateResult} (hl : s.linkState = .listening)
    (hv : validate s = .ok (r, u)) :
    exec .pkt s = .next { u with linkState := .idle, wake := true } :=
  (exec_pkt_listening hl).2 ⟨r, u, hv, rfl⟩

/-! ## The gates before the frame is read -/

theorem validate_of_status_not_idle {s : State} (h : statusIdle (statusByte s) = false) :
    validate s = .ok (.rejected, { dropResponse s with
      linkErr := true, rfrxLen := 0,
      outputs := s.outputs ++ [commandOut (.rstrobe .snop),
        errorOut .radioStateMismatch (statusByte s)] }) := by
  rw [validate_eq, h, statusAsked_eq]
  simp [rejectPacket, raise]

/-- Settles O28: the first gate rejects, and `PKT` then ends Listening. -/
theorem unexpectedStatusRejectsThePacket : Obligations.UnexpectedStatusRejectsThePacket := by
  unfold Obligations.UnexpectedStatusRejectsThePacket
  intro s hl hst
  have hv := validate_of_status_not_idle
    (Bool.eq_false_iff.2 fun hidle => hst ((statusIdle_iff (statusByte s)).1 hidle))
  exact ⟨⟨_, hv⟩, exec_pkt_of_validate hl hv⟩

/-- The state after a count is rejected with the report `e`: status and count asked, no more. -/
def countRejected (s : State) (e : ErrorKind) : State :=
  { dropResponses s 2 with
    linkErr := true, rfrxLen := 0,
    outputs := s.outputs ++ [commandOut (.rstrobe .snop),
      commandOut (.rread s.cfg.regRxCount), errorOut e (countByte s)] }

theorem rejectPacket_raise_countAsked (s : State) (e : ErrorKind) :
    rejectPacket (raise { countAsked s with linkErr := true } e (countByte s)) =
      (.rejected, countRejected s e) := by
  rw [countAsked_eq]
  simp [rejectPacket, raise, countRejected]

theorem validate_of_count_short {s : State} (h : statusIdle (statusByte s) = true)
    (h5 : (countByte s).toNat < 5) :
    validate s = .ok (.rejected, countRejected s .shortPacket) := by
  rw [validate_eq, if_pos h, checkCount, countOperand, if_pos h5, rejectPacket_raise_countAsked]
  rfl

theorem validate_of_count_oversize {s : State} (h : statusIdle (statusByte s) = true)
    (h5 : 5 ≤ (countByte s).toNat) (hc : s.cfg.rfRxCap < (countByte s).toNat) :
    validate s = .ok (.rejected, countRejected s .oversizePacket) := by
  rw [validate_eq, if_pos h, checkCount, countOperand, if_neg (Nat.not_lt.2 h5),
    if_pos (by rw [countAsked_cfg]; exact hc), rejectPacket_raise_countAsked]
  rfl

/-- Settles O29: the two count gates, taken after an Idle status. -/
theorem countOutOfRangeRejectsThePacket : Obligations.CountOutOfRangeRejectsThePacket := by
  unfold Obligations.CountOutOfRangeRejectsThePacket
  intro s n hl hst hn
  obtain rfl : n = countByte s := hn
  have hidle : statusIdle (statusByte s) = true := (statusIdle_iff _).2 hst
  refine ⟨fun h5 => ?_, fun h5 hc => ?_⟩
  · have hv := validate_of_count_short hidle h5
    exact ⟨⟨_, hv⟩, exec_pkt_of_validate hl hv⟩
  · have hv := validate_of_count_oversize hidle h5 hc
    exact ⟨⟨_, hv⟩, exec_pkt_of_validate hl hv⟩

/-! ## Forwarding -/

theorem PacketRead.byteAt {s u : State} {nb : Byte} (h : PacketRead s u nb) {i : Nat}
    (hi : i < nb.toNat) :
    u.byteAt .rfrx i = (nextResponses (dropResponses s 2) nb.toNat)[i]? := by
  simpa using h.frame i (by simpa using hi)

/-- A packet that passes every gate reaches steps 6 to 8 of `VALIDATE` with its frame read. -/
theorem forwardPacket_of_validate {s v : State} {r : ValidateResult} {q : Byte}
    (hv : validate s = .ok (r, v)) (hidle : statusIdle (statusByte s) = true)
    (h5 : 5 ≤ (countByte s).toNat) (hc : (countByte s).toNat ≤ s.cfg.rfRxCap)
    (hq : (nextResponses (dropResponses s 2) (countByte s).toNat)[(countByte s).toNat - 1]? =
      some q)
    (hcrc : crcValid q = true) (hroom : (countByte s).toNat - 3 ≤ txFree s) :
    ∃ u, PacketRead s u (countByte s) ∧ forwardPacket u (countByte s).toNat = .ok (r, v) := by
  obtain ⟨u, hu, hcheck⟩ := validate_reads hidle h5 hc
  have hfree : txFree u = txFree s := by rw [hu.frameOnly]; rfl
  obtain ⟨q', hq', ⟨hbad, -⟩ | ⟨-, hfull, -⟩ | ⟨-, -, hf⟩⟩ := checkPacket_eq_ok (hcheck ▸ hv)
  · rw [hu.byteAt (by omega), hq, Option.some.injEq] at hq'
    rw [← hq', hcrc] at hbad
    contradiction
  · omega
  · exact ⟨u, hu, hf⟩

/-- The state after `VALIDATE` has forwarded a packet of `nb` bytes with the telemetry `text`, in
terms of the state it began in; `first` is the byte an idle drainer is handed. -/
structure PacketForwarded (s v : State) (nb first : Byte) (text : List Byte) : Prop where
  eq : v = { dropResponses s (nb.toNat + 2) with
    rfrx := v.rfrx, txbuf := v.txbuf, rfrxLen := 0,
    txLen := s.txLen + (nb.toNat - 3) +
      (if text.length ≤ s.cfg.txCap - (s.txLen + (nb.toNat - 3)) then text.length else 0),
    txActive := true,
    outputs := s.outputs ++ [commandOut (.rstrobe .snop),
      commandOut (.rread s.cfg.regRxCount), commandOut (.rrfifo nb)] ++
      (if text.length ≤ s.cfg.txCap - (s.txLen + (nb.toNat - 3)) then []
        else [errorOut .transmitBufferOverflow (BitVec.ofNat 8 text.length)]) ++
      (if s.txActive then [] else [commandOut (.ssend first)]) }
  handed : s.txActive = false → v.byteAt .txbuf s.txRd = some first
  frame : v.holds .rfrx 0 (nextResponses (dropResponses s 2) nb.toNat)
  beyond : ∀ i, nb.toNat ≤ i → v.byteAt .rfrx i = s.byteAt .rfrx i
  payload : ∀ j < nb.toNat - 3, v.byteAt .txbuf (s.txLen + j) =
    (nextResponses (dropResponses s 2) nb.toNat)[1 + j]?
  telemetry : text.length ≤ s.cfg.txCap - (s.txLen + (nb.toNat - 3)) →
    v.holds .txbuf (s.txLen + (nb.toNat - 3)) text
  others : ∀ i, i < s.txLen ∨ v.txLen ≤ i → v.byteAt .txbuf i = s.byteAt .txbuf i

/-- Steps 6 to 8 after step 3: the registers they start from are those `VALIDATE` began with. -/
theorem PacketRead.forwarded {s u v : State} {r : ValidateResult} {nb strength q : Byte}
    (hread : PacketRead s u nb) (h5 : 5 ≤ nb.toNat)
    (hforward : forwardPacket u nb.toNat = .ok (r, v))
    (hstrength : (nextResponses (dropResponses s 2) nb.toNat)[nb.toNat - 2]? = some strength)
    (hq : (nextResponses (dropResponses s 2) nb.toNat)[nb.toNat - 1]? = some q) :
    r = .forwarded (nb.toNat - 3) ∧
      ∃ first, PacketForwarded s v nb first (telemetryText s.cfg strength q) := by
  have hsame := hread.frameOnly
  have hcfg : u.cfg = s.cfg := by rw [hsame]
  have hlen : u.txLen = s.txLen := by rw [hsame]
  have hrd : u.txRd = s.txRd := by rw [hsame]
  have hact : u.txActive = s.txActive := by rw [hsame]
  have htx (i : Nat) : u.byteAt .txbuf i = s.byteAt .txbuf i := by rw [hsame]; rfl
  have hout : u.outputs = s.outputs ++ [commandOut (.rstrobe .snop),
      commandOut (.rread s.cfg.regRxCount), commandOut (.rrfifo nb)] := by rw [hread.eq]
  obtain ⟨strength', q', first, text, fit, hs', hq', rfl, rfl, rfl, hstate, hhanded, hpayload,
    htelemetry, hothers, -, -⟩ := forwardPacket_eq_ok hforward
  rw [hread.byteAt (by omega), hstrength, Option.some.injEq] at hs'
  rw [hread.byteAt (by omega), hq, Option.some.injEq] at hq'
  subst hs' hq'
  simp only [hcfg, hlen, hrd, hact, hout, htx, decide_eq_true_eq]
    at hstate hhanded hpayload htelemetry hothers
  have hrx (i : Nat) : v.byteAt .rfrx i = u.byteAt .rfrx i := by rw [hstate]; rfl
  refine ⟨rfl, first, ?_, hhanded, fun j hj => (hrx _).trans (hread.frame j hj),
    fun i hi => (hrx i).trans (hread.beyond i hi), fun j hj => ?_, htelemetry, fun i hi => ?_⟩
  · obtain ⟨_, _, hd⟩ := dropResponses_eq s (nb.toNat + 2)
    rw [hstate, hread.eq, hd]
  · rw [(hpayload j hj).1, hread.byteAt (by omega)]
  · rw [hstate] at hi
    exact hothers i hi

/-- An idle drainer has an empty queue, so its cursor stands where the payload begins (10_state.md
R48, R50). -/
theorem State.Inv.txRd_eq_txLen_of_idle {s : State} (hinv : s.Inv) (h : s.txActive = false) :
    s.txRd = s.txLen := by
  have hlen := hinv.activeIff.not.1 (by simp [h])
  have hrd := hinv.txRdLe
  omega

/-- What the drainer is handed is the payload's first byte (43_packet_validator.md R206). -/
theorem PacketForwarded.kick {s v : State} {nb first payload : Byte} {text : List Byte}
    (h : PacketForwarded s v nb first text) (hinv : s.Inv) (h5 : 5 ≤ nb.toNat)
    (hpayload : (nextResponses (dropResponses s 2) nb.toNat)[1]? = some payload) :
    (if s.txActive then [] else [commandOut (.ssend first)]) =
      if s.txActive then [] else [commandOut (.ssend payload)] := by
  cases hact : s.txActive with
  | true => rfl
  | false =>
    have hput := h.payload 0 (by omega)
    rw [Nat.add_zero, Nat.add_zero, ← hinv.txRd_eq_txLen_of_idle hact, h.handed hact, hpayload,
      Option.some.injEq] at hput
    rw [hput]

/-- Settles O32: no gate rejects, so step 3 reads the frame and steps 6 to 8 store and emit the
rest; the byte an idle drainer is handed is the payload's first because the queue before it is empty. -/
theorem acceptedPacketIsForwarded : Obligations.AcceptedPacketIsForwarded := by
  unfold Obligations.AcceptedPacketIsForwarded
  intro s nb fifo strength q first text n hinv hl hst hnb hn h5 hcap hfifo hfirst hstrength hq
    hcrc hroom htext
  obtain rfl : nb = countByte s := hnb
  subst hn hfifo htext
  obtain ⟨r, v, hv⟩ := validate_answers hinv
  obtain ⟨u, hread, hforward⟩ :=
    forwardPacket_of_validate hv ((statusIdle_iff _).2 hst) h5 hcap hq hcrc hroom
  obtain ⟨rfl, handed, h⟩ := hread.forwarded h5 hforward hstrength hq
  refine ⟨_, v, hv, exec_pkt_of_validate hl hv, ?_, h.frame, h.beyond, h.payload, h.telemetry,
    h.others⟩
  have heq := h.eq
  rw [h.kick hinv h5 hfirst] at heq
  rw [heq]

end Sys2Proof.Machine
end

section
/-! PROOFS. The Serial Transmit Drainer (44_serial_drainer.md): `TXD` of an idle drainer, at the end
of the queue and before it. -/

namespace Sys2Proof.Machine

theorem exec_txd_idle {s : State} (h : s.txActive = false) : exec .txd s = .next s :=
  exec_txd_eq_next.2 (.inl ⟨h, rfl⟩)

theorem exec_txd_last {s : State} (h : s.txActive = true) (hend : s.txRd + 1 = s.txLen) :
    exec .txd s = .next { s with txRd := 0, txLen := 0, txActive := false } :=
  exec_txd_eq_next.2 (.inr (.inl ⟨h, hend, rfl⟩))

theorem exec_txd_more {s : State} {b : Byte} (h : s.txActive = true)
    (hend : s.txRd + 1 ≠ s.txLen) (hread : memRead s .txbuf (s.txRd + 1) = .ok b) :
    exec .txd s = .next { s with
      txRd := s.txRd + 1, outputs := s.outputs ++ [commandOut (.ssend b)] } :=
  exec_txd_eq_next.2 (.inr (.inr ⟨h, hend, b, hread, rfl⟩))

/-- Every queued byte is inside the transmit buffer and has been written (10_state.md R48, R50). -/
theorem State.Inv.memRead_queued {s : State} (hinv : s.Inv) {i : Nat} (hi : i < s.txLen) :
    ∃ b, memRead s .txbuf i = .ok b ∧ s.byteAt .txbuf i = some b :=
  memRead_written (Nat.lt_of_lt_of_le hi hinv.txLenLe) (hinv.txWritten i hi)

/-- Settles O39: the cursor of an active drainer is below the queue's end, so where `TXD` does not
reach the end the next byte is still queued. -/
theorem txdSendsTheNextByteOrEndsTheQueue : Obligations.TxdSendsTheNextByteOrEndsTheQueue := by
  unfold Obligations.TxdSendsTheNextByteOrEndsTheQueue
  intro s hinv
  refine ⟨exec_txd_idle, exec_txd_last, fun hact hend => ?_⟩
  have hqueued : s.txRd + 1 < s.txLen := Nat.lt_of_le_of_ne (hinv.activeRd hact) hend
  obtain ⟨b, hread, hbyte⟩ := hinv.memRead_queued hqueued
  exact ⟨b, hbyte, exec_txd_more hact hend hread⟩

end Sys2Proof.Machine
end

section
/-! PROOFS. The Numeric Formatter (45_numeric_formatter.md): the capacity test of `FMTDEC`, and the
text of a number of one digit. -/

namespace Sys2Proof.Machine

/-- 45_numeric_formatter.md R233. A success is never taken for a failure, because no text is
empty. -/
theorem fmtDec_len_eq_zero_iff {v : BitVec Config.intw} {capacity : Nat} :
    (fmtDec v capacity).len = 0 ↔ capacity < (decText v.toInt).length + 1 := by
  refine ⟨fun hzero => ?_, fmtDec_fails⟩
  by_contra hfits
  have hlen := (fmtDec_ok (Nat.le_of_not_lt hfits)).1
  have hpos := decText_length_pos v.toInt
  omega

theorem decDigits_of_lt {m : Nat} (fuel : Nat) (h : m < 10) :
    decDigits (fuel + 1) m = [decDigit m] :=
  if_pos h

theorem decText_of_digit {v : Int} (h0 : 0 ≤ v) (h9 : v ≤ 9) :
    decText v = [decDigit v.natAbs] := by
  have hdigit : v.natAbs < 10 := by omega
  rw [decText, if_neg (Int.not_lt.2 h0), decDigits_of_lt _ hdigit, List.nil_append]

/-- Settles O34: the capacity test in both directions, at capacity 0, and the lengths of the texts
the rule names; the last two are computed. -/
theorem fmtDecFailsExactlyWhenTooSmall : Obligations.FmtDecFailsExactlyWhenTooSmall := by
  unfold Obligations.FmtDecFailsExactlyWhenTooSmall
  refine ⟨fun v capacity => fmtDec_len_eq_zero_iff, fun v => ?_, fun v h0 h9 => ?_, rfl, rfl⟩
  · exact fmtDec_len_eq_zero_iff.2 (Nat.succ_pos _)
  · rw [decText_of_digit h0 h9, List.length_singleton]

end Sys2Proof.Machine
end

section
/-! PROOFS. The words of the three ports: decode and encode of event words in both directions, what
tells two commands apart, and the rows of the command table (30_encoding.md sections 2 to 4). -/

namespace Sys2Proof

/-! ## Event words -/

/-- Settles O1: `decode_eq_ok_iff`, read in its two directions. -/
theorem eventWordsDecodeAndEncodeAgree : Obligations.EventWordsDecodeAndEncodeAgree := by
  unfold Obligations.EventWordsDecodeAndEncodeAgree
  exact ⟨decode_encode, fun _ _ h => (eq_encode_of_decode h).symm⟩

/-- Settles O3: the legal words are encodings, and the others have a reserved shape. -/
theorem specEventWordsDecode : Obligations.SpecEventWordsDecode := by
  unfold Obligations.SpecEventWordsDecode
  exact ⟨decode_encode .step, decode_encode (.rxb 0x00#8), decode_encode (.rxb 0x68#8),
    decode_encode (.rxb 0x0A#8), decode_encode (.rxb 0xFF#8), decode_encode .tmr,
    decode_encode .txd, decode_encode .pkt, decode_reservedData (by decide) (by decide),
    decode_reservedData (by decide) (by decide), decode_reservedOp (by decide),
    decode_reservedOp (by decide)⟩

/-- A word of four and eight bits is its row's match with the low byte put under it. -/
theorem append_eq_match_or (code : BitVec 4) (arg : Byte) :
    code ++ arg = (code ++ 0x00#8) ||| arg.setWidth 12 := by
  have harg : arg.setWidth 12 = 0x0#4 ++ arg := BitVec.setWidth_eq_append (by decide)
  rw [harg, BitVec.or_append, BitVec.or_zero, BitVec.zero_or]

end Sys2Proof

namespace Sys2Proof.Machine

/-! ## Commands -/

/-- The strobe of a code (30_encoding.md R98). -/
def readStrobe (arg : Byte) : Option Strobe :=
  if arg = 0x00#8 then some .snop
  else if arg = 0x01#8 then some .sidle
  else if arg = 0x02#8 then some .srx
  else if arg = 0x03#8 then some .stx
  else none

/-- Read a command back from its code, its argument and its byte lane (30_encoding.md R97). -/
def readCommand (code : BitVec 4) (arg : Byte) (lane : List Byte) : Option Command :=
  match code.toNat with
  | 1 => (readStrobe arg).map .rstrobe
  | 2 => some (.rread arg)
  | 3 => some (.rwfifo lane)
  | 4 => some (.rrfifo arg)
  | 5 => some .rreinit
  | 6 => some (.ssend arg)
  | 7 => some (.srxie (arg == 0x01#8))
  | 8 => some (.tarm arg)
  | 9 => some .tdisarm
  | _ => none

theorem readStrobe_strobeCode (s : Strobe) : readStrobe (strobeCode s) = some s := by
  cases s <;> rfl

theorem readCommand_command (c : Command) :
    readCommand (commandCode c) (commandArg c) (commandLane c) = some c := by
  cases c with
  | rstrobe s => exact congrArg (Option.map Command.rstrobe) (readStrobe_strobeCode s)
  | srxie e => cases e <;> rfl
  | rread | rwfifo | rrfifo | rreinit | ssend | tarm | tdisarm => rfl

/-- What the command port carries tells the command. -/
theorem commandOut_inj {c d : Command} (h : commandOut c = commandOut d) : c = d := by
  obtain ⟨hword, hlane⟩ := PortWord.command.inj h
  obtain ⟨hcode, harg⟩ := eventWord_eq_append_iff.1 hword
  rw [commandWord, evOp_append] at hcode
  rw [commandWord, evData_append] at harg
  rw [← Option.some.injEq, ← readCommand_command c, ← readCommand_command d, hcode, harg, hlane]

/-- Settles O4: a command is read back from what it puts on the port. -/
theorem commandWordsTellCommandsApart : Obligations.CommandWordsTellCommandsApart := by
  unfold Obligations.CommandWordsTellCommandsApart
  exact fun _ _ _ _ h => commandOut_inj h

/-- The count of a FIFO write, which fits its byte (30_encoding.md R100). -/
theorem setWidth_count {n : Nat} (h : n ≤ 255) :
    (BitVec.ofNat 8 n).setWidth 12 = BitVec.ofNat 12 n := by
  apply BitVec.eq_of_toNat_eq
  simp only [BitVec.toNat_setWidth, BitVec.toNat_ofNat]
  omega

/-- Settles O5: a command word and a report word are code and argument one behind the other. -/
theorem outputWordsMatchTheCommandTable : Obligations.OutputWordsMatchTheCommandTable := by
  unfold Obligations.OutputWordsMatchTheCommandTable
  refine ⟨rfl, rfl, rfl, rfl, append_eq_match_or _, fun bs h => ?_, append_eq_match_or _, rfl,
    append_eq_match_or _, rfl, rfl, append_eq_match_or _, rfl, fun info => ?_⟩
  · rw [← setWidth_count h]
    exact append_eq_match_or 0x3#4 _
  · exact ⟨append_eq_match_or _ info, append_eq_match_or _ info, append_eq_match_or _ info,
      append_eq_match_or _ info, append_eq_match_or _ info, append_eq_match_or _ info,
      append_eq_match_or _ info, append_eq_match_or _ info⟩

end Sys2Proof.Machine
end

section
/-! PROOFS. Taking an operation: the step by its next input, refused parameters, the reset input
and the registers after it (60_exceptions.md section 4, 70_reset_and_hazards.md section 1). -/

namespace Sys2Proof.Machine

/-- An operation has one next state. -/
theorem exec_unique {i : Instr} {s t u : State} (h : exec i s = .next t)
    (h' : exec i s = .next u) : t = u :=
  Host.Outcome.next.inj (h.symm.trans h')

/-! ## The step by its next input -/

theorem fetch_of_decode_ok {s : State} {w : EventWord} {rest : List Input} {i : Instr}
    (hin : s.inputs = .event w :: rest) (hi : decode w = .ok i) : fetch s = .run i := by
  simp [fetch, hin, hi]

theorem takeInput_of_nil {s : State} (hin : s.inputs = []) : takeInput s = s := by
  rw [takeInput, hin, List.tail_nil, ← hin]

theorem step_of_decode_ok {s : State} {w : EventWord} {rest : List Input} {i : Instr}
    (hcfg : s.cfg.wellFormed = true) (hin : s.inputs = .event w :: rest)
    (hi : decode w = .ok i) : step s = exec i { s with inputs := rest } := by
  rw [step, if_pos hcfg, fetch_of_decode_ok hin hi, takeInput_of_cons hin]

theorem step_of_reset {s : State} {rest : List Input} (hcfg : s.cfg.wellFormed = true)
    (hin : s.inputs = .reset :: rest) : step s = .next (applyReset { s with inputs := rest }) := by
  have hfetch : fetch s = .reset := by simp [fetch, hin]
  rw [step, if_pos hcfg, hfetch, takeInput_of_cons hin]

theorem step_of_no_input {s : State} (hcfg : s.cfg.wellFormed = true) (hin : s.inputs = []) :
    step s = exec .step s := by
  have hfetch : fetch s = .run .step := by simp [fetch, hin]
  rw [step, if_pos hcfg, hfetch, takeInput_of_nil hin]

/-- Settles O6: one case for each shape of the pending inputs. -/
theorem stepRunsTheDecodedOperation : Obligations.StepRunsTheDecodedOperation := by
  unfold Obligations.StepRunsTheDecodedOperation
  intro s hcfg
  exact ⟨fun w rest i => step_of_decode_ok hcfg, fun rest => step_of_reset hcfg,
    step_of_no_input hcfg⟩

/-! ## Parameters out of range -/

theorem wellFormed_iff (p : Params) : p.wellFormed = true ↔
    2 ≤ p.maxPay ∧ p.maxPay ≤ 252 ∧ 1 ≤ p.txCap ∧ 5 ≤ p.rfRxCap ∧ p.rfRxCap ≤ 255 ∧
      1 ≤ p.numCap ∧ 1 ≤ p.flushMs ∧ 1 ≤ p.tmrMax ∧ p.tmrMax ≤ 255 ∧ 1 ≤ p.pollCap := by
  simp only [Params.wellFormed, Params.maxPayOk, Params.txCapOk, Params.rfRxCapOk,
    Params.numCapOk, Params.flushMsOk, Params.tmrMaxOk, Params.pollCapOk, Bool.and_eq_true,
    decide_eq_true_eq, and_assoc]

theorem finish_ne_refused (x : Except Fault State) (r : Refusal) : finish x ≠ .refused r := by
  cases x <;> simp [finish]

/-- No operation is refused. -/
theorem exec_ne_refused (i : Instr) (s : State) (r : Refusal) : exec i s ≠ .refused r := by
  cases i with
  | step =>
    rw [exec, execStep]
    split
    · simp
    · simp
    · simp
    · exact finish_ne_refused _ _
  | rxb b => exact finish_ne_refused _ _
  | tmr =>
    rw [exec, execTmr]
    split <;> simp
  | txd =>
    rw [exec, execTxd]
    split
    · exact finish_ne_refused _ _
    · simp
  | pkt => exact finish_ne_refused _ _

theorem step_eq_refused_iff (s : State) :
    step s = .refused .parametersOutOfRange ↔ s.cfg.wellFormed ≠ true := by
  unfold step
  split
  · rename_i hcfg
    refine iff_of_false ?_ (not_not_intro hcfg)
    split
    · exact exec_ne_refused _ _ _
    · simp
    · simp
  · exact iff_of_true rfl ‹_›

/-- Settles O8: the test of `step`, and no operation answers a refusal of its own. -/
theorem parametersOutOfRangeAreRefused : Obligations.ParametersOutOfRangeAreRefused := by
  unfold Obligations.ParametersOutOfRangeAreRefused
  intro s
  rw [step_eq_refused_iff, ne_eq, wellFormed_iff]

/-! ## The reset input -/

/-- Settles O9: every register but the model's own ports is written by the reset. -/
theorem resetPutsEveryRegisterAtItsResetValue :
    Obligations.ResetPutsEveryRegisterAtItsResetValue := by
  unfold Obligations.ResetPutsEveryRegisterAtItsResetValue
  exact fun s rest hcfg hin => ⟨_, step_of_reset hcfg hin, rfl⟩

/-- Settles O10: after a reset the receive buffer is empty, the drainer idle and the link Idle. -/
theorem staleEventsAfterResetAreHarmless : Obligations.StaleEventsAfterResetAreHarmless := by
  unfold Obligations.StaleEventsAfterResetAreHarmless
  exact fun s => ⟨exec_tmr_empty (Nat.lt_irrefl 0), exec_txd_idle rfl, exec_pkt_idle rfl⟩

end Sys2Proof.Machine
end

section
/-! PROOFS. The Numeric Formatter and the telemetry text (45_numeric_formatter.md,
43_packet_validator.md section 4): the digits of a number, the round trip, and the buffer. -/

namespace Sys2Proof.Machine

/-! ## The digits of a number -/

theorem decDigit_eq_zero_iff {d : Nat} (h : d < 10) : decDigit d = 0x30#8 ↔ d = 0 := by
  rw [← BitVec.toNat_inj, decDigit_toNat h]
  simp

theorem decDigits_are_digits (fuel m : Nat) :
    ∀ d ∈ decDigits fuel m, 0x30 ≤ d.toNat ∧ d.toNat ≤ 0x39 := by
  have hdigit {k : Nat} (hk : k < 10) :
      0x30 ≤ (decDigit k).toNat ∧ (decDigit k).toNat ≤ 0x39 := by
    rw [decDigit_toNat hk]
    omega
  induction fuel generalizing m with
  | zero => simp [decDigits]
  | succ fuel ih =>
    intro d hd
    rw [decDigits] at hd
    split at hd
    · rw [List.mem_singleton.1 hd]
      exact hdigit ‹m < 10›
    · obtain hd | hd := List.mem_append.1 hd
      · exact ih (m / 10) d hd
      · rw [List.mem_singleton.1 hd]
        exact hdigit (Nat.mod_lt m (by decide))

/-- A number above zero has no leading zero. -/
theorem decDigits_head?_ne_zero {fuel m : Nat} (hm : m < fuel) (hpos : 0 < m) :
    (decDigits fuel m).head? ≠ some 0x30#8 := by
  induction fuel generalizing m with
  | zero => omega
  | succ fuel ih =>
    rw [decDigits]
    split
    · rename_i hlt
      rw [List.head?_cons, ne_eq, Option.some.injEq, decDigit_eq_zero_iff hlt]
      omega
    · obtain ⟨fuel, rfl⟩ : ∃ k, fuel = k + 1 := ⟨fuel - 1, by omega⟩
      rw [List.head?_append_of_ne_nil _ (decDigits_ne_nil fuel (m / 10))]
      exact ih (by omega) (by omega)

theorem eq_zero_of_leading_zero {v : Int}
    (h : (decDigits (v.natAbs + 1) v.natAbs).head? = some 0x30#8) : v = 0 := by
  by_contra hv
  exact decDigits_head?_ne_zero (Nat.lt_succ_self v.natAbs) (Int.natAbs_pos.2 hv) h

/-- The digits of an absolute value, as `decText` takes them. -/
theorem decDigits_natAbs_eq_zero_iff {v : Int} :
    decDigits (v.natAbs + 1) v.natAbs = [0x30#8] ↔ v = 0 := by
  refine ⟨fun h => eq_zero_of_leading_zero (by rw [h]; rfl), ?_⟩
  rintro rfl
  rfl

/-- Settles O36: the text is the sign and the digits, whose first is 0 for the number 0 alone. -/
theorem decimalTextIsCanonical : Obligations.DecimalTextIsCanonical := by
  unfold Obligations.DecimalTextIsCanonical
  intro v
  exact ⟨decDigits (v.natAbs + 1) v.natAbs, rfl, decDigits_ne_nil _ _, decDigits_are_digits _ _,
    fun hhead => decDigits_natAbs_eq_zero_iff.2 (eq_zero_of_leading_zero hhead),
    decDigits_natAbs_eq_zero_iff.symm, parseDigits_decDigits _ _ (Nat.lt_succ_self _)⟩

/-! ## The round trip -/

/-- The text of a number reads back as the number (45_numeric_formatter.md R237). -/
theorem parseDec_decText (v : Int) : parseDec (decText v) = some v := by
  have hparse := parseDigits_decDigits (v.natAbs + 1) v.natAbs (Nat.lt_succ_self _)
  rw [decText]
  split
  · rw [List.singleton_append, parseDec, if_pos rfl, if_neg (decDigits_ne_nil _ _), hparse]
    exact congrArg some (by omega : -(v.natAbs : Int) = v)
  · obtain ⟨d, ds, hdigits, hminus⟩ := decDigits_head v.natAbs v.natAbs
    rw [hdigits] at hparse
    rw [List.nil_append, hdigits, parseDec, if_neg hminus, hparse]
    exact congrArg some (by omega : (v.natAbs : Int) = v)

theorem decText_inj {v w : Int} (h : decText v = decText w) : v = w := by
  rw [← Option.some.injEq, ← parseDec_decText v, ← parseDec_decText w, h]

/-- Settles O37: `FMTDEC` stores the text, which reads back as the value. -/
theorem fmtDecRoundTrips : Obligations.FmtDecRoundTrips := by
  unfold Obligations.FmtDecRoundTrips
  refine ⟨fun v capacity h => ?_, fun v w h => BitVec.eq_of_toInt_eq (decText_inj h)⟩
  obtain ⟨-, htext, -⟩ := fmtDec_ok h
  rw [htext, parseDec_decText]

/-- Settles O35: what `fmtDec_ok` says of the buffer, with the length written out. -/
theorem fmtDecWritesTextAndTerminator : Obligations.FmtDecWritesTextAndTerminator := by
  unfold Obligations.FmtDecWritesTextAndTerminator
  intro v capacity h
  obtain ⟨hlen, htext, hterm, hcap⟩ := fmtDec_ok h
  exact ⟨hlen, hcap, hlen ▸ htext, hterm⟩

/-! ## The telemetry text -/

theorem decText_byte_length_le (b : Byte) : (decText (b.toNat : Int)).length ≤ 3 := by
  have hb := b.isLt
  have hlen := decDigits_length_le (b.toNat + 1) b.toNat 2 (Nat.lt_succ_self _) (by omega)
  rwa [decText, if_neg (by omega), List.nil_append, Int.natAbs_natCast]

theorem telemetryText_eq (p : Params) (a b : Byte) : telemetryText p a b =
    (if p.numCap < (decText (a.toNat : Int)).length + 1 then [0x3F#8]
      else decText (a.toNat : Int)) ++ [0x20#8] ++
    (if p.numCap < (decText (b.toNat : Int)).length + 1 then [0x3F#8]
      else decText (b.toNat : Int)) ++ [0x0A#8] := by
  rw [telemetryText, telemetryNumber_eq, telemetryNumber_eq]
  rfl

/-- Settles O38: no byte's text and terminator need more than 4 bytes. -/
theorem telemetryTextIsDecimalOrPlaceholder : Obligations.TelemetryTextIsDecimalOrPlaceholder := by
  unfold Obligations.TelemetryTextIsDecimalOrPlaceholder
  intro p a b
  refine ⟨telemetryText_eq p a b, fun h4 => ?_, telemetryText_length p a b⟩
  have hfits (x : Byte) : ¬ p.numCap < (decText (x.toNat : Int)).length + 1 := by
    have := decText_byte_length_le x
    omega
  rw [telemetryText_eq, if_neg (hfits a), if_neg (hfits b)]

end Sys2Proof.Machine
end

section
/-! PROOFS. The buffers, the state after reset and the widths of the registers (20_memory.md,
10_state.md sections 2, 3, 5 and 8). -/

namespace Sys2Proof.Machine

/-! ## Read after write -/

theorem memWrite_of_lt {s : State} {b : Buf} {i : Nat} {v : Byte} (h : i < Params.cap s.cfg b) :
    memWrite s b i v = .ok (s.setMem b (Memory.write (s.mem b) i v)) :=
  memWrite_eq_ok.2 ⟨h, rfl⟩

theorem memWrite_of_le {s : State} {b : Buf} {i : Nat} {v : Byte} (h : Params.cap s.cfg b ≤ i) :
    memWrite s b i v = .error (.indexOutOfRange b i) :=
  if_neg (Nat.not_lt.2 h)

theorem byteAt_setMem_write (s : State) (b b' : Buf) (i j : Nat) (v : Byte) :
    (s.setMem b (Memory.write (s.mem b) i v)).byteAt b' j =
      if b' = b ∧ j = i then some v else s.byteAt b' j := by
  by_cases hb : b' = b
  · subst hb
    rw [byteAt_setMem_same, read_write]
    simp [State.byteAt]
  · rw [byteAt_setMem_other s _ hb, if_neg fun h => hb h.1]

/-- Settles O41: a write inside the buffer changes one byte of one buffer. -/
theorem writtenByteIsReadBack : Obligations.WrittenByteIsReadBack := by
  unfold Obligations.WrittenByteIsReadBack
  intro s b i v
  refine ⟨fun h => ⟨_, memWrite_of_lt h, memRead_eq_ok.2 ⟨?_, ?_⟩, fun b' j hne => ?_,
    fun hwf => ?_⟩, memWrite_of_le⟩
  · rwa [setMem_cfg]
  · rw [byteAt_setMem_write, if_pos ⟨rfl, rfl⟩]
  · rw [byteAt_setMem_write, if_neg hne]
  · rw [mem_setMem_same]
    exact write_wf i v hwf

/-! ## The state after reset -/

theorem resetWith_byteAt (p : Params) (b : Buf) (i : Nat) :
    (State.resetWith p).byteAt b i = none := by
  cases b <;> rfl

/-- After reset every cursor is 0 and no buffer holds a byte (10_state.md R56). -/
theorem resetWith_inv {p : Params} (h : p.wellFormed = true) : (State.resetWith p).Inv where
  cfgOk := h
  rxLenLe := Nat.zero_le _
  pendCntLe := Nat.zero_le _
  txRdLe := Nat.le_refl 0
  txLenLe := Nat.zero_le _
  timeoutMarked := nofun
  markedBytes := fun hm => absurd rfl hm
  activeIff := ⟨nofun, fun hlt => absurd hlt (Nat.lt_irrefl 0)⟩
  activeRd := nofun
  rfrxLenZero := rfl
  pollIdle := nofun
  waitIdleWakes := nofun
  pollKLt := by
    obtain ⟨-, -, -, -, -, -, -, -, -, hcap⟩ := (wellFormed_iff p).1 h
    exact hcap
  memWf := reset_mem_wf p
  memFits := fun b i _ => resetWith_byteAt p b i
  rxWritten := fun i hi => absurd hi (Nat.not_lt_zero i)
  txWritten := fun i hi => absurd hi (Nat.not_lt_zero i)

/-- Settles O42: T0 is among the legal parameters. -/
theorem invariantsHoldAfterReset : Obligations.InvariantsHoldAfterReset := by
  unfold Obligations.InvariantsHoldAfterReset
  exact ⟨resetWith_inv (by decide), fun p => resetWith_inv⟩

/-! ## The widths of the registers -/

/-- A register of `clog2 (c + 1)` bits holds every value up to `c`. -/
theorem lt_two_pow_clog_succ {n c : Nat} (h : n ≤ c) : n < 2 ^ Nat.clog 2 (c + 1) :=
  Nat.lt_of_lt_of_le (Nat.lt_succ_of_le h) (Nat.le_pow_clog (by decide) _)

/-- Settles O45: the bounds of the invariants, each below the power of two that holds it. -/
theorem registersFitTheirWidths : Obligations.RegistersFitTheirWidths := by
  unfold Obligations.RegistersFitTheirWidths
  intro s hinv
  refine ⟨lt_two_pow_clog_succ hinv.rxLenLe, lt_two_pow_clog_succ hinv.pendCntLe,
    lt_two_pow_clog_succ hinv.txLenLe,
    lt_two_pow_clog_succ (Nat.le_trans hinv.txRdLe hinv.txLenLe),
    lt_two_pow_clog_succ (hinv.rfrxLenZero ▸ Nat.zero_le _), ?_⟩
  calc s.pollK < s.cfg.pollCap := hinv.pollKLt
    _ ≤ 2 ^ Nat.clog 2 s.cfg.pollCap := Nat.le_pow_clog (by decide) _
    _ ≤ 2 ^ max 1 (Nat.clog 2 s.cfg.pollCap) :=
      Nat.pow_le_pow_right (by decide) (Nat.le_max_right _ _)

end Sys2Proof.Machine
end

section
/-! PROOFS. Runs of one operation: the polls of a radio that is not Idle (42_link_state_machine.md
section 2), the drainer's queue (44_serial_drainer.md), and the empty dispatch. -/

namespace Sys2Proof.Machine

theorem execAll_cons {s t : State} {i : Instr} {is : List Instr} (h : exec i s = .next t) :
    execAll (i :: is) s = execAll is t := by
  rw [execAll, h]

/-! ## Polls -/

/-- A poll that the radio does not answer with Idle (42_link_state_machine.md R166). -/
theorem exec_poll_not_idle {s : State} (hp : s.seq = .poll)
    (hst : (nextResponse s).extractLsb' 4 3 ≠ 0#3) :
    exec .step s = .next (if s.pollK + 1 < s.cfg.pollCap
      then { dropResponse s with
        pollK := s.pollK + 1, outputs := s.outputs ++ [commandOut (.rstrobe .snop)] }
      else { dropResponse s with
        linkErr := true, seq := .top,
        outputs := s.outputs ++ [commandOut (.rstrobe .snop),
          errorOut .radioIdleTimeout (nextResponse s)] }) := by
  have hnot : ¬ statusIdle (statusByte s) = true := (statusIdle_iff (statusByte s)).not.2 hst
  rw [exec_poll hp, stepPoll_eq, if_neg hnot, statusAsked_eq, pollFailed_eq]
  simp [pollAgain, statusByte]

/-- Settles O22: the two outcomes exclude each other at the cap. -/
theorem pollNotIdleCountsUpToTheCap : Obligations.PollNotIdleCountsUpToTheCap := by
  unfold Obligations.PollNotIdleCountsUpToTheCap
  intro s hp hst
  rw [exec_poll_not_idle hp hst]
  exact ⟨fun hlt => by rw [if_pos hlt], fun hle => by rw [if_neg (Nat.not_lt.2 hle)]⟩

theorem nextResponse_of_cons {s : State} {st : Byte} {rest : List Byte}
    (h : s.responses = st :: rest) : nextResponse s = st := by
  rw [nextResponse, h]

theorem dropResponse_of_cons {s : State} {st : Byte} {rest : List Byte}
    (h : s.responses = st :: rest) : dropResponse s = { s with responses := rest } := by
  rw [dropResponse, h]

/-- The polls that are left before the cap, from any of them on. -/
theorem execAll_polls_to_cap {s : State} {sts rest : List Byte} {last : Byte} (hp : s.seq = .poll)
    (hresp : s.responses = sts ++ last :: rest) (hcap : s.pollK + sts.length + 1 = s.cfg.pollCap)
    (hst : ∀ st ∈ sts ++ [last], st.extractLsb' 4 3 ≠ 0#3) :
    execAll (List.replicate (sts.length + 1) .step) s = .next { s with
      pollK := s.pollK + sts.length, linkErr := true, seq := .top, responses := rest,
      outputs := s.outputs ++ List.replicate (sts.length + 1) (commandOut (.rstrobe .snop)) ++
        [errorOut .radioIdleTimeout last] } := by
  induction sts generalizing s with
  | nil =>
    have hnext := nextResponse_of_cons hresp
    have hexec := exec_poll_not_idle hp (hnext ▸ hst last (by simp))
    rw [if_neg (by simp at hcap; omega), dropResponse_of_cons hresp, hnext] at hexec
    rw [List.length_nil, List.replicate_succ, execAll_cons hexec]
    simp [execAll]
  | cons st sts ih =>
    have hnext := nextResponse_of_cons hresp
    have hexec := exec_poll_not_idle hp (hnext ▸ hst st (by simp))
    rw [List.length_cons] at hcap
    rw [if_pos (by omega), dropResponse_of_cons hresp] at hexec
    have hrest := fun x hx => hst x (List.mem_cons_of_mem st hx)
    refine (execAll_cons hexec).trans ((ih ?_ ?_ ?_ hrest).trans ?_)
    · exact hp
    · rfl
    · simp only
      omega
    · simp [List.replicate_succ, Nat.add_assoc, Nat.add_comm 1]

/-- Settles O23: the polls from the first one on. -/
theorem pollCapBoundsTheWait : Obligations.PollCapBoundsTheWait := by
  unfold Obligations.PollCapBoundsTheWait
  intro s sts rest last hp hk hresp hcap hst
  have hrun := execAll_polls_to_cap hp (by rw [hresp, List.append_assoc]; rfl)
    (by rw [hk, Nat.zero_add, hcap]) hst
  rw [hcap, hk, Nat.zero_add] at hrun
  exact hrun

/-! ## The drainer's queue -/

theorem State.holds.head {s : State} {b : Buf} {i : Nat} {v : Byte} {vs : List Byte}
    (h : s.holds b i (v :: vs)) : s.byteAt b i = some v := by
  simpa using h 0 (by simp)

theorem State.holds.tail {s : State} {b : Buf} {i : Nat} {v : Byte} {vs : List Byte}
    (h : s.holds b i (v :: vs)) : s.holds b (i + 1) vs := by
  intro j hj
  have hbyte := h (j + 1) (by simpa using hj)
  rwa [Nat.add_comm j 1, ← Nat.add_assoc, Nat.add_comm 1 j, List.getElem?_cons_succ] at hbyte

/-- The queue from any of its bytes on: one `TXD` for each byte left, and one that ends it. -/
theorem execAll_txd_drains {s : State} {bs : List Byte} (hact : s.txActive = true)
    (hcap : s.txLen ≤ s.cfg.txCap) (hlen : s.txRd + 1 + bs.length = s.txLen)
    (hheld : s.holds .txbuf (s.txRd + 1) bs) :
    execAll (List.replicate (bs.length + 1) .txd) s = .next { s with
      txRd := 0, txLen := 0, txActive := false,
      outputs := s.outputs ++ bs.map (fun b => commandOut (.ssend b)) } := by
  induction bs generalizing s with
  | nil =>
    rw [List.length_nil, List.replicate_succ, execAll_cons (exec_txd_last hact hlen)]
    simp [execAll]
  | cons b bs ih =>
    rw [List.length_cons] at hlen
    have hread : memRead s .txbuf (s.txRd + 1) = .ok b :=
      memRead_eq_ok.2 ⟨by simp only [Params.cap]; omega, hheld.head⟩
    have hexec := exec_txd_more hact (by omega) hread
    refine (execAll_cons hexec).trans ((ih ?_ ?_ ?_ ?_).trans ?_)
    · exact hact
    · exact hcap
    · simp only
      omega
    · exact hheld.tail
    · simp

/-- Settles O40: the queue behind the byte being sent. -/
theorem drainerSendsTheQueueInOrder : Obligations.DrainerSendsTheQueueInOrder := by
  unfold Obligations.DrainerSendsTheQueueInOrder
  exact fun s bs hinv hact hlen hheld => execAll_txd_drains hact hinv.txLenLe hlen hheld

/-! ## The empty dispatch -/

/-- Settles O15: the two other answers of `DISPATCH` need the marker. -/
theorem dispatchIsEmptyExactlyWithoutMarker : Obligations.DispatchIsEmptyExactlyWithoutMarker := by
  unfold Obligations.DispatchIsEmptyExactlyWithoutMarker
  refine ⟨fun s h => ?_, fun s t h => ?_⟩
  · rw [dispatch, if_neg (by simp [markerSet, h])]
    rfl
  · obtain ⟨hmarker, -, -⟩ | ⟨-, hr, -⟩ | ⟨-, flen, -, -, -, hr, -⟩ := dispatch_eq_ok h
    · exact hmarker
    · exact absurd hr (by simp)
    · exact absurd hr (by simp)

end Sys2Proof.Machine
end

section
/-! PROOFS. The invariants of 10_state.md section 5: cut into the parts that one operation leaves
alone or writes, each part over the values of its registers, and kept by every step; and that no
step stops. -/

namespace Sys2Proof.Machine

/-! ## The parts of the invariants -/

/-- A buffer's contents are canonical and inside its capacity (20_memory.md R79). -/
structure BufOk (cap : Nat) (m : Memory) : Prop where
  wf : Memory.wf m = true
  fits : ∀ i, cap ≤ i → Memory.read m i = none

/-- The Serial Receive Buffer and its registers (10_state.md R47, R49; 92_eei_decisions.md D12). -/
structure RxOk (p : Params) (rxLen pendCnt : Nat) (pendTo : Bool) (m : Memory) : Prop where
  lenLe : rxLen ≤ p.c
  pendLe : pendCnt ≤ p.c
  timeoutMarked : pendTo = true → pendCnt ≠ 0
  markedBytes : pendCnt ≠ 0 → rxLen ≠ 0
  written : ∀ i < rxLen, (Memory.read m i).isSome = true
  buf : BufOk p.c m

/-- The Serial Transmit Buffer and its registers (10_state.md R48, R50). -/
structure TxOk (p : Params) (txLen txRd : Nat) (txActive : Bool) (m : Memory) : Prop where
  rdLe : txRd ≤ txLen
  lenLe : txLen ≤ p.txCap
  activeIff : txActive = true ↔ 0 < txLen
  activeRd : txActive = true → txRd < txLen
  written : ∀ i < txLen, (Memory.read m i).isSome = true
  buf : BufOk p.txCap m

/-- The sequencer and the link (10_state.md R45, R52; 42_link_state_machine.md R170). -/
structure SeqOk (p : Params) (seq : Phase) (link : LinkState) (wake : Bool) (pollK : Nat) :
    Prop where
  pollIdle : seq = .poll → link = .idle
  waitIdleWakes : seq = .wait → link = .idle → wake = true
  pollKLt : pollK < p.pollCap

/-- The two radio frames (10_state.md R52). -/
structure RadioOk (p : Params) (rfrxLen : Nat) (rftx rfrx : Memory) : Prop where
  lenZero : rfrxLen = 0
  sent : BufOk p.rfTxCap rftx
  received : BufOk p.rfRxCap rfrx

/-- The invariants are those of the parts, whose values are all a state's registers. -/
theorem State.inv_iff {s : State} : s.Inv ↔ s.cfg.wellFormed = true ∧
    RxOk s.cfg s.rxLen s.pendCnt s.pendTo s.rxbuf ∧ TxOk s.cfg s.txLen s.txRd s.txActive s.txbuf ∧
    SeqOk s.cfg s.seq s.linkState s.wake s.pollK ∧ RadioOk s.cfg s.rfrxLen s.rftx s.rfrx := by
  constructor
  · intro h
    have hbuf (b : Buf) : BufOk (Params.cap s.cfg b) (s.mem b) := ⟨h.memWf b, h.memFits b⟩
    exact ⟨h.cfgOk,
      ⟨h.rxLenLe, h.pendCntLe, h.timeoutMarked, h.markedBytes, h.rxWritten, hbuf .rxbuf⟩,
      ⟨h.txRdLe, h.txLenLe, h.activeIff, h.activeRd, h.txWritten, hbuf .txbuf⟩,
      ⟨h.pollIdle, h.waitIdleWakes, h.pollKLt⟩, ⟨h.rfrxLenZero, hbuf .rftx, hbuf .rfrx⟩⟩
  · rintro ⟨hcfg, hrx, htx, hseq, hradio⟩
    have hbuf (b : Buf) : BufOk (Params.cap s.cfg b) (s.mem b) := by
      cases b with
      | rxbuf => exact hrx.buf
      | txbuf => exact htx.buf
      | rftx => exact hradio.sent
      | rfrx => exact hradio.received
    exact {
      cfgOk := hcfg
      rxLenLe := hrx.lenLe
      pendCntLe := hrx.pendLe
      txRdLe := htx.rdLe
      txLenLe := htx.lenLe
      timeoutMarked := hrx.timeoutMarked
      markedBytes := hrx.markedBytes
      activeIff := htx.activeIff
      activeRd := htx.activeRd
      rfrxLenZero := hradio.lenZero
      pollIdle := hseq.pollIdle
      waitIdleWakes := hseq.waitIdleWakes
      pollKLt := hseq.pollKLt
      memWf := fun b => (hbuf b).wf
      memFits := fun b => (hbuf b).fits
      rxWritten := hrx.written
      txWritten := htx.written }

/-! ## What the operations do to a part -/

theorem BufOk.write {cap i : Nat} {m : Memory} (h : BufOk cap m) (v : Byte) (hi : i < cap) :
    BufOk cap (Memory.write m i v) where
  wf := write_wf i v h.wf
  fits := fun a ha => by rw [read_write_other m v (by omega), h.fits a ha]

/-- A buffer rewritten below its capacity only. -/
theorem BufOk.rewrite {cap n : Nat} {m m' : Memory} (h : BufOk cap m)
    (hwf : Memory.wf m = true → Memory.wf m' = true) (hn : n ≤ cap)
    (hframe : ∀ a, n ≤ a → Memory.read m' a = Memory.read m a) : BufOk cap m' where
  wf := hwf h.wf
  fits := fun a ha => by rw [hframe a (Nat.le_trans hn ha), h.fits a ha]

theorem RxOk.append {p : Params} {n c : Nat} {tmo : Bool} {m : Memory} (h : RxOk p n c tmo m)
    (b : Byte) (hn : n < p.c) : RxOk p (n + 1) c tmo (Memory.write m n b) where
  lenLe := hn
  pendLe := h.pendLe
  timeoutMarked := h.timeoutMarked
  markedBytes := fun _ => Nat.succ_ne_zero n
  written := fun i hi => by
    rw [read_write]
    split
    · rfl
    · exact h.written i (by omega)
  buf := h.buf.write b hn

/-- The marker put behind the last byte received, by a delimiter or by the timeout. -/
theorem RxOk.mark {p : Params} {n c : Nat} {tmo : Bool} {m : Memory} (h : RxOk p n c tmo m)
    (hn : n ≠ 0) (tmo' : Bool) : RxOk p n n tmo' m where
  lenLe := h.lenLe
  pendLe := h.lenLe
  timeoutMarked := fun _ => hn
  markedBytes := id
  written := h.written
  buf := h.buf

theorem RxOk.empty {p : Params} {m : Memory} (h : BufOk p.c m) : RxOk p 0 0 false m where
  lenLe := Nat.zero_le _
  pendLe := Nat.zero_le _
  timeoutMarked := nofun
  markedBytes := id
  written := fun i hi => absurd hi (Nat.not_lt_zero i)
  buf := h

/-- The bytes behind a frame of `flen` bytes move to the front, and the marker's count stays where
bytes remain (41_outbound_dispatcher.md R147, R150). -/
theorem RxOk.compact {p : Params} {n c flen : Nat} {tmo : Bool} {m m' : Memory}
    (h : RxOk p n c tmo m) (hwf : Memory.wf m = true → Memory.wf m' = true)
    (hmoved : ∀ j < n - flen, Memory.read m' j = Memory.read m (flen + j))
    (hframe : ∀ a, n - flen ≤ a → Memory.read m' a = Memory.read m a) :
    RxOk p (n - flen) (if flen < n then c else 0) false m' where
  lenLe := Nat.le_trans (Nat.sub_le n flen) h.lenLe
  pendLe := by
    split
    · exact h.pendLe
    · exact Nat.zero_le _
  timeoutMarked := nofun
  markedBytes := fun hc => by
    split at hc
    · omega
    · exact absurd rfl hc
  written := fun j hj => by
    rw [hmoved j hj]
    exact h.written _ (by omega)
  buf := h.buf.rewrite hwf (Nat.le_trans (Nat.sub_le n flen) h.lenLe) hframe

theorem TxOk.empty {p : Params} {m : Memory} (h : BufOk p.txCap m) : TxOk p 0 0 false m where
  rdLe := Nat.le_refl 0
  lenLe := Nat.zero_le _
  activeIff := ⟨nofun, fun hlt => absurd hlt (Nat.lt_irrefl 0)⟩
  activeRd := nofun
  written := fun i hi => absurd hi (Nat.not_lt_zero i)
  buf := h

theorem TxOk.advance {p : Params} {n rd : Nat} {m : Memory} (h : TxOk p n rd true m)
    (hrd : rd + 1 ≠ n) : TxOk p n (rd + 1) true m where
  rdLe := h.activeRd rfl
  lenLe := h.lenLe
  activeIff := h.activeIff
  activeRd := fun _ => Nat.lt_of_le_of_ne (h.activeRd rfl) hrd
  written := h.written
  buf := h.buf

/-- Bytes queued behind the old ones start the drainer (43_packet_validator.md R206). -/
theorem TxOk.enqueue {p : Params} {n n' rd : Nat} {act : Bool} {m m' : Memory}
    (h : TxOk p n rd act m) (hlt : n < n') (hcap : n' ≤ p.txCap)
    (hwf : Memory.wf m = true → Memory.wf m' = true)
    (hnew : ∀ i, n ≤ i → i < n' → (Memory.read m' i).isSome = true)
    (hframe : ∀ a, a < n ∨ n' ≤ a → Memory.read m' a = Memory.read m a) :
    TxOk p n' rd true m' where
  rdLe := Nat.le_trans h.rdLe (Nat.le_of_lt hlt)
  lenLe := hcap
  activeIff := iff_of_true rfl (Nat.zero_lt_of_lt hlt)
  activeRd := fun _ => Nat.lt_of_le_of_lt h.rdLe hlt
  written := fun i hi => by
    by_cases hold : i < n
    · rw [hframe i (.inl hold)]
      exact h.written i hold
    · exact hnew i (Nat.le_of_not_lt hold) hi
  buf := h.buf.rewrite hwf hcap fun a ha => hframe a (.inr ha)

theorem SeqOk.wakeUp {p : Params} {seq : Phase} {link : LinkState} {wake : Bool} {k : Nat}
    (h : SeqOk p seq link wake k) : SeqOk p seq link true k :=
  ⟨h.pollIdle, fun _ _ => rfl, h.pollKLt⟩

/-- Where every `PKT` leaves link and wake latch (42_link_state_machine.md R172 to R175). -/
theorem SeqOk.packetBoundary {p : Params} {seq : Phase} {link : LinkState} {wake : Bool} {k : Nat}
    (h : SeqOk p seq link wake k) : SeqOk p seq .idle true k :=
  ⟨fun _ => rfl, fun _ _ => rfl, h.pollKLt⟩

/-- Phases `TOP` and `POST` ask nothing of the link. -/
theorem SeqOk.free {p : Params} {seq : Phase} {k : Nat} (hseq : seq = .top ∨ seq = .post)
    (link : LinkState) (wake : Bool) (hk : k < p.pollCap) : SeqOk p seq link wake k := by
  obtain rfl | rfl := hseq <;> exact ⟨nofun, nofun, hk⟩

/-! ## The serial operations keep the invariants -/

theorem rxbMark_rxbDisarm_inv {s : State} (b : Byte) (hinv : s.Inv) (hlen : s.rxLen ≠ 0) :
    (rxbMark (rxbDisarm s) b).Inv := by
  obtain ⟨hcfg, hrx, htx, hseq, hradio⟩ := State.inv_iff.1 hinv
  rw [rxbMark_rxbDisarm]
  by_cases hb : b = Config.delim
  · simp only [if_pos hb]
    exact State.inv_iff.2 ⟨hcfg, hrx.mark hlen _, htx, hseq.wakeUp, hradio⟩
  · simp only [if_neg hb]
    exact State.inv_iff.2 ⟨hcfg, hrx, htx, hseq, hradio⟩

theorem exec_rxb_inv {s t : State} {b : Byte} (hinv : s.Inv) (h : exec (.rxb b) s = .next t) :
    t.Inv := by
  obtain ⟨hcfg, hrx, htx, hseq, hradio⟩ := State.inv_iff.1 hinv
  by_cases hroom : s.rxLen < s.cfg.c
  · obtain rfl := exec_unique (exec_rxb_room hroom) h
    exact rxbMark_rxbDisarm_inv b
      (State.inv_iff.2 ⟨hcfg, hrx.append b hroom, htx, hseq, hradio⟩) (Nat.succ_ne_zero _)
  · obtain rfl := exec_unique (exec_rxb_full hroom) h
    refine rxbMark_rxbDisarm_inv b (State.inv_iff.2 ⟨hcfg, hrx, htx, hseq, hradio⟩) ?_
    obtain ⟨hpay, -⟩ := (wellFormed_iff s.cfg).1 hcfg
    rw [Params.c] at hroom
    show s.rxLen ≠ 0
    omega

theorem exec_tmr_inv {s t : State} (hinv : s.Inv) (h : exec .tmr s = .next t) : t.Inv := by
  obtain ⟨hcfg, hrx, htx, hseq, hradio⟩ := State.inv_iff.1 hinv
  by_cases hlen : 0 < s.rxLen
  · obtain rfl := exec_unique (exec_tmr_nonempty hlen) h
    exact State.inv_iff.2
      ⟨hcfg, hrx.mark (Nat.ne_of_gt hlen) true, htx, hseq.wakeUp, hradio⟩
  · obtain rfl := exec_unique (exec_tmr_empty hlen) h
    exact State.inv_iff.2 ⟨hcfg, hrx, htx, hseq, hradio⟩

theorem exec_txd_inv {s t : State} (hinv : s.Inv) (h : exec .txd s = .next t) : t.Inv := by
  obtain ⟨hcfg, hrx, htx, hseq, hradio⟩ := State.inv_iff.1 hinv
  obtain ⟨-, rfl⟩ | ⟨-, -, rfl⟩ | ⟨hact, hend, b, -, rfl⟩ := exec_txd_eq_next.1 h
  · exact hinv
  · exact State.inv_iff.2 ⟨hcfg, hrx, .empty htx.buf, hseq, hradio⟩
  · refine State.inv_iff.2 ⟨hcfg, hrx, ?_, hseq, hradio⟩
    simp only [hact] at htx ⊢
    exact htx.advance hend

/-! ## `PKT` keeps the invariants -/

theorem State.holds.written {s : State} {b : Buf} {i j : Nat} {bs : List Byte}
    (h : s.holds b i bs) (hi : i ≤ j) (hj : j < i + bs.length) :
    (s.byteAt b j).isSome = true := by
  have hlt : j - i < bs.length := by omega
  have hbyte := h (j - i) hlt
  rw [Nat.add_sub_cancel' hi, List.getElem?_eq_getElem hlt] at hbyte
  rw [hbyte]
  rfl

/-- Steps 6 to 8 of `VALIDATE` queue the payload, and the telemetry text where it fits. -/
theorem forwardPacket_txOk {s t : State} {n : Nat} {r : ValidateResult}
    (htx : TxOk s.cfg s.txLen s.txRd s.txActive s.txbuf) (h5 : 5 ≤ n) (hfree : n - 3 ≤ txFree s)
    (h : forwardPacket s n = .ok (r, t)) : TxOk s.cfg t.txLen s.txRd t.txActive t.txbuf := by
  obtain ⟨_, _, first, text, fit, -, -, -, hfit, -, ht, -, hpayload, htelemetry, hframe, hwf, -⟩ :=
    forwardPacket_eq_ok h
  have hact : t.txActive = true := by rw [ht]
  have hlen : t.txLen = s.txLen + (n - 3) + if fit then text.length else 0 := by rw [ht]
  have hold := htx.lenLe
  rw [txFree] at hfree
  rw [hact, hlen]
  refine htx.enqueue (by omega) ?_ hwf (fun i hi hnew => ?_) hframe
  · cases fit with
    | true =>
      have hroom := of_decide_eq_true hfit.symm
      simp only [if_true]
      omega
    | false =>
      simp only [Bool.false_eq_true, if_false]
      omega
  · by_cases hpay : i < s.txLen + (n - 3)
    · obtain ⟨hbyte, hsome⟩ := hpayload (i - s.txLen) (by omega)
      rw [Nat.add_sub_cancel' hi] at hbyte
      exact (congrArg Option.isSome hbyte).trans hsome
    · cases fit with
      | true => exact (htelemetry rfl).written (Nat.le_of_not_lt hpay) hnew
      | false => exact absurd hnew hpay

/-- `VALIDATE` keeps the parts it writes: the transmit queue and the Radio Receive Frame. -/
theorem validate_parts {s t : State} {r : ValidateResult} (hinv : s.Inv)
    (h : validate s = .ok (r, t)) :
    TxOk s.cfg t.txLen s.txRd t.txActive t.txbuf ∧ BufOk s.cfg.rfRxCap t.rfrx := by
  obtain ⟨-, -, htx, -, hradio⟩ := State.inv_iff.1 hinv
  have early (n : Nat) : TxOk s.cfg (dropResponses s n).txLen s.txRd (dropResponses s n).txActive
      (dropResponses s n).txbuf ∧ BufOk s.cfg.rfRxCap (dropResponses s n).rfrx := by
    obtain ⟨_, _, hd⟩ := dropResponses_eq s n
    rw [hd]
    exact ⟨htx, hradio.received⟩
  obtain ⟨-, -, rfl⟩ | ⟨-, -, e, -, rfl⟩ | ⟨-, h5, hcap, u, hu, hcheck⟩ := validate_eq_ok h
  · exact early 1
  · exact early 2
  · have hrfrx : BufOk s.cfg.rfRxCap u.rfrx := hradio.received.rewrite hu.wf hcap hu.beyond
    have htxu : TxOk u.cfg u.txLen u.txRd u.txActive u.txbuf := by
      rw [hu.frameOnly]
      exact htx
    have hcfg : u.cfg = s.cfg := by rw [hu.frameOnly]
    have hrd : u.txRd = s.txRd := by rw [hu.frameOnly]
    rw [← hcfg, ← hrd]
    rw [← hcfg] at hrfrx
    obtain ⟨q, -, ⟨-, -, rfl⟩ | ⟨-, -, -, rfl⟩ | ⟨-, hfree, hf⟩⟩ := checkPacket_eq_ok hcheck
    · exact ⟨htxu, hrfrx⟩
    · exact ⟨htxu, hrfrx⟩
    · obtain ⟨_, _, _, _, _, -, -, -, -, -, ht, -⟩ := forwardPacket_eq_ok hf
      have hkept : t.rfrx = u.rfrx := by rw [ht]
      exact ⟨forwardPacket_txOk htxu h5 hfree hf, hkept ▸ hrfrx⟩

theorem exec_pkt_inv {s t : State} (hinv : s.Inv) (h : exec .pkt s = .next t) : t.Inv := by
  obtain ⟨hcfg, hrx, htx, hseq, hradio⟩ := State.inv_iff.1 hinv
  cases hl : s.linkState with
  | idle =>
    obtain rfl := exec_unique (exec_pkt_idle hl) h
    exact State.inv_iff.2 ⟨hcfg, hrx, htx, hseq.wakeUp, hradio⟩
  | transmitting =>
    obtain rfl := exec_unique (exec_pkt_transmitting hl) h
    exact State.inv_iff.2 ⟨hcfg, hrx, htx, hseq.packetBoundary, hradio⟩
  | listening =>
    obtain ⟨r, u, hv, rfl⟩ := (exec_pkt_listening hl).1 h
    obtain ⟨htx', hrfrx'⟩ := validate_parts hinv hv
    rw [validate_frame hv]
    exact State.inv_iff.2
      ⟨hcfg, hrx, htx', hseq.packetBoundary, rfl, hradio.sent, hrfrx'⟩

/-! ## `STEP` keeps the invariants -/

theorem stepTop_inv {s : State} (hinv : s.Inv) : (stepTop s).Inv := by
  obtain ⟨hcfg, hrx, htx, hseq, hradio⟩ := State.inv_iff.1 hinv
  by_cases hl : s.linkState = .idle
  · rw [stepTop_idle hl]
    exact State.inv_iff.2
      ⟨hcfg, hrx, htx, ⟨fun _ => hl, nofun, Nat.zero_lt_of_lt hseq.pollKLt⟩, hradio⟩
  · rw [stepTop_not_idle hl]
    exact State.inv_iff.2
      ⟨hcfg, hrx, htx, ⟨nofun, fun _ hidle => absurd hidle hl, hseq.pollKLt⟩, hradio⟩

/-- After `POLL` the link is Listening, another poll is allowed, or the loop starts over. -/
theorem stepPoll_seqOk {s : State} (hp : s.seq = .poll)
    (h : SeqOk s.cfg s.seq s.linkState s.wake s.pollK) :
    SeqOk s.cfg (stepPoll s).seq (stepPoll s).linkState s.wake (stepPoll s).pollK := by
  obtain ⟨r, k, hd⟩ := dropResponses_eq s 1
  rw [stepPoll_eq, statusAsked_eq, show dropResponse s = _ from hd]
  split
  · exact ⟨nofun, nofun, h.pollKLt⟩
  · rw [pollFailed_eq]
    split
    · rename_i hagain
      exact ⟨fun _ => h.pollIdle hp, fun hwait => absurd (hp.symm.trans hwait) (by decide),
        of_decide_eq_true hagain⟩
    · exact .free (.inl rfl) _ _ h.pollKLt

theorem stepPoll_inv {s : State} (hp : s.seq = .poll) (hinv : s.Inv) : (stepPoll s).Inv := by
  obtain ⟨hcfg, hrx, htx, hseq, hradio⟩ := State.inv_iff.1 hinv
  have hseq' := stepPoll_seqOk hp hseq
  rw [stepPoll_frame]
  exact State.inv_iff.2 ⟨hcfg, hrx, htx, hseq', hradio⟩

theorem stepWait_inv {s : State} (hinv : s.Inv) : (stepWait s).Inv := by
  obtain ⟨hcfg, hrx, htx, hseq, hradio⟩ := State.inv_iff.1 hinv
  rw [stepWait_eq]
  split
  · exact State.inv_iff.2 ⟨hcfg, hrx, htx, .free (.inr rfl) _ _ hseq.pollKLt, hradio⟩
  · exact hinv

/-- `DISPATCH` keeps the parts it writes: the receive buffer and the Radio Transmit Frame. -/
theorem dispatch_parts {s t : State} {r : DispatchResult} (hinv : s.Inv)
    (h : dispatch s = .ok (r, t)) :
    RxOk s.cfg t.rxLen t.pendCnt t.pendTo t.rxbuf ∧ BufOk s.cfg.rfTxCap t.rftx := by
  obtain ⟨-, hrx, -, -, hradio⟩ := State.inv_iff.1 hinv
  obtain ⟨-, -, rfl⟩ | ⟨-, -, info, rfl, -⟩ | ⟨-, flen, -, -, hle, -, hs⟩ := dispatch_eq_ok h
  · exact ⟨hrx, hradio.sent⟩
  · exact ⟨.empty hrx.buf, hradio.sent⟩
  · obtain ⟨frame, -, -, ht, -, hsent, hmoved, hframe, hwf, -⟩ := sendFrame_eq_ok hs
    have hrx' := hrx.compact (hwf .rxbuf) hmoved hframe
    have hsent' : BufOk s.cfg.rfTxCap t.rftx :=
      hradio.sent.rewrite (hwf .rftx) (Nat.succ_le_succ hle) hsent
    have hto : (if flen < s.rxLen then (dispatchReady s).pendTo else false) = false := ite_self _
    rw [ht]
    refine ⟨?_, hsent'⟩
    show RxOk s.cfg (s.rxLen - flen) (if flen < s.rxLen then s.pendCnt else 0)
      (if flen < s.rxLen then (dispatchReady s).pendTo else false) t.rxbuf
    rw [hto]
    exact hrx'

theorem exec_post_inv {s t : State} (hp : s.seq = .post) (hinv : s.Inv)
    (h : exec .step s = .next t) : t.Inv := by
  obtain ⟨hcfg, hrx, htx, hseq, hradio⟩ := State.inv_iff.1 hinv
  obtain ⟨-, rfl⟩ | ⟨-, -, r, u, hd, rfl⟩ := (exec_post_eq_next hp).1 h
  · exact State.inv_iff.2 ⟨hcfg, hrx, htx, .free (.inl rfl) _ _ hseq.pollKLt, hradio⟩
  · obtain ⟨hrx', hsent'⟩ := dispatch_parts hinv hd
    rw [dispatch_frame hd]
    exact State.inv_iff.2 ⟨hcfg, hrx', htx, .free (.inl rfl) _ _ hseq.pollKLt,
      hradio.lenZero, hsent', hradio.received⟩

theorem exec_step_inv {s t : State} (hinv : s.Inv) (h : exec .step s = .next t) : t.Inv := by
  cases hp : s.seq with
  | top => exact exec_unique (exec_top hp) h ▸ stepTop_inv hinv
  | poll => exact exec_unique (exec_poll hp) h ▸ stepPoll_inv hp hinv
  | wait => exact exec_unique (exec_wait hp) h ▸ stepWait_inv hinv
  | post => exact exec_post_inv hp hinv h

/-! ## Every step -/

theorem exec_inv {i : Instr} {s t : State} (hinv : s.Inv) (h : exec i s = .next t) : t.Inv := by
  cases i with
  | step => exact exec_step_inv hinv h
  | rxb b => exact exec_rxb_inv hinv h
  | tmr => exact exec_tmr_inv hinv h
  | txd => exact exec_txd_inv hinv h
  | pkt => exact exec_pkt_inv hinv h

theorem takeInput_inv {s : State} (hinv : s.Inv) : (takeInput s).Inv :=
  State.inv_iff.2 ((State.inv_iff (s := s)).1 hinv)

theorem applyReset_inv {s : State} (hinv : s.Inv) : (applyReset s).Inv :=
  State.inv_iff.2 ((State.inv_iff (s := .resetWith s.cfg)).1 (resetWith_inv hinv.cfgOk))

/-- Settles O43: the next input is taken, and then an operation, nothing or the reset follows. -/
theorem everyStepKeepsTheInvariants : Obligations.EveryStepKeepsTheInvariants := by
  unfold Obligations.EveryStepKeepsTheInvariants
  intro s t hinv h
  rw [step, if_pos hinv.cfgOk] at h
  split at h
  · exact exec_inv (takeInput_inv hinv) h
  · rw [← Host.Outcome.next.inj h]
    exact takeInput_inv hinv
  · rw [← Host.Outcome.next.inj h]
    exact applyReset_inv (takeInput_inv hinv)

/-! ## No step stops -/

theorem exec_post_answers {s : State} (hinv : s.Inv) (hp : s.seq = .post) :
    ∃ t, exec .step s = .next t := by
  by_cases hnot : s.linkState = .transmitting ∨ s.pendCnt = 0
  · exact ⟨_, (exec_post_eq_next hp).2 (.inl ⟨hnot, rfl⟩)⟩
  · obtain ⟨hl, hm⟩ := not_or.1 hnot
    obtain ⟨r, u, hd⟩ := dispatch_written hinv.rxLenLe hinv.rxWritten
    exact ⟨_, exec_post_of_dispatch hp hl hm hd⟩

theorem exec_step_answers {s : State} (hinv : s.Inv) : ∃ t, exec .step s = .next t := by
  cases hp : s.seq with
  | top => exact ⟨_, exec_top hp⟩
  | poll => exact ⟨_, exec_poll hp⟩
  | wait => exact ⟨_, exec_wait hp⟩
  | post => exact exec_post_answers hinv hp

theorem exec_txd_answers {s : State} (hinv : s.Inv) : ∃ t, exec .txd s = .next t := by
  cases hact : s.txActive with
  | false => exact ⟨_, exec_txd_idle hact⟩
  | true =>
    by_cases hend : s.txRd + 1 = s.txLen
    · exact ⟨_, exec_txd_last hact hend⟩
    · obtain ⟨b, hread, -⟩ :=
        hinv.memRead_queued (Nat.lt_of_le_of_ne (hinv.activeRd hact) hend)
      exact ⟨_, exec_txd_more hact hend hread⟩

theorem exec_pkt_answers {s : State} (hinv : s.Inv) : ∃ t, exec .pkt s = .next t := by
  cases hl : s.linkState with
  | idle => exact ⟨_, exec_pkt_idle hl⟩
  | transmitting => exact ⟨_, exec_pkt_transmitting hl⟩
  | listening =>
    obtain ⟨r, u, hv⟩ := validate_answers hinv
    exact ⟨_, exec_pkt_of_validate hl hv⟩

theorem exec_answers {s : State} (hinv : s.Inv) (i : Instr) : ∃ t, exec i s = .next t := by
  cases i with
  | step => exact exec_step_answers hinv
  | rxb b =>
    obtain ⟨m, hexec, -⟩ := exec_rxb_appends s b
    exact ⟨_, hexec⟩
  | tmr => exact ⟨_, tmrMarksTheWholeBuffer s⟩
  | txd => exact exec_txd_answers hinv
  | pkt => exact exec_pkt_answers hinv

/-- Settles O44: every operation answers where its bytes have been written. -/
theorem noStepStops : Obligations.NoStepStops := by
  unfold Obligations.NoStepStops
  intro s hinv
  rw [step, if_pos hinv.cfgOk]
  split
  · exact exec_answers (takeInput_inv hinv) _
  · exact ⟨_, rfl⟩
  · exact ⟨_, rfl⟩

end Sys2Proof.Machine
end

section
/-! PROOFS. From the received bytes to the frame (40_serial_framer.md section 5,
41_outbound_dispatcher.md sections 2 to 4): a run of `RXB`, and the `DISPATCH` of what it left. -/

namespace Sys2Proof.Machine

/-! ## Runs of operations -/

theorem execAll_append {s t : State} {is js : List Instr} (h : execAll is s = .next t) :
    execAll (is ++ js) s = execAll js t := by
  induction is generalizing s with
  | nil => rw [List.nil_append, Host.Outcome.next.inj h]
  | cons i is ih =>
    cases hi : exec i s with
    | next u =>
      rw [execAll_cons hi] at h
      rw [List.cons_append, execAll_cons hi, ih h]
    | fault f => simp [execAll, hi] at h
    | refused r => simp [execAll, hi] at h

theorem execAll_inv {s t : State} {is : List Instr} (hinv : s.Inv) (h : execAll is s = .next t) :
    t.Inv := by
  induction is generalizing s with
  | nil => exact Host.Outcome.next.inj h ▸ hinv
  | cons i is ih =>
    obtain ⟨u, hu⟩ := exec_answers hinv i
    rw [execAll_cons hu] at h
    exact ih (exec_inv hinv hu) h

/-- Words emitted after a history are what was emitted since. -/
theorem emittedBetween_of_append {s t : State} {ws : List PortWord}
    (h : t.outputs = s.outputs ++ ws) : emittedBetween s t = ws := by
  rw [emittedBetween, h, List.drop_left]

/-! ## What a buffer holds -/

theorem State.holds.left {s : State} {b : Buf} {i : Nat} {xs ys : List Byte}
    (h : s.holds b i (xs ++ ys)) : s.holds b i xs := by
  intro j hj
  rw [h j (by rw [List.length_append]; omega), List.getElem?_append_left hj]

theorem State.holds.right {s : State} {b : Buf} {i : Nat} {xs ys : List Byte}
    (h : s.holds b i (xs ++ ys)) : s.holds b (i + xs.length) ys := by
  intro j hj
  rw [Nat.add_assoc, h _ (by rw [List.length_append]; omega),
    List.getElem?_append_right (Nat.le_add_right _ _), Nat.add_sub_cancel_left]

theorem State.holds.append {s : State} {b : Buf} {i : Nat} {xs ys : List Byte}
    (hx : s.holds b i xs) (hy : s.holds b (i + xs.length) ys) : s.holds b i (xs ++ ys) := by
  intro j hj
  rw [List.length_append] at hj
  by_cases hlt : j < xs.length
  · rw [hx j hlt, List.getElem?_append_left hlt]
  · have hbyte := hy (j - xs.length) (by omega)
    rw [List.getElem?_append_right (Nat.le_of_not_lt hlt), ← hbyte]
    congr 1
    omega

/-! ## A run of `RXB` -/

/-- What a run of `RXB` with room for all its bytes `bs` does to the receive side; the marker and
the wake latch are written by delimiters alone. -/
structure RxRun (s t : State) (bs : List Byte) : Prop where
  len : t.rxLen = s.rxLen + bs.length
  cfg : t.cfg = s.cfg
  link : t.linkState = s.linkState
  timeout : t.pendTo = s.pendTo
  held : t.holds .rxbuf s.rxLen bs
  older : ∀ i < s.rxLen, t.byteAt .rxbuf i = s.byteAt .rxbuf i
  marker : Config.delim ∉ bs → t.pendCnt = s.pendCnt ∧ t.wake = s.wake

theorem RxRun.nil (s : State) : RxRun s s [] :=
  ⟨rfl, rfl, rfl, rfl, fun _ hj => absurd hj (Nat.not_lt_zero _), fun _ _ => rfl,
    fun _ => ⟨rfl, rfl⟩⟩

theorem RxRun.trans {s t u : State} {bs cs : List Byte} (h : RxRun s t bs) (h' : RxRun t u cs) :
    RxRun s u (bs ++ cs) where
  len := by rw [h'.len, h.len, List.length_append, Nat.add_assoc]
  cfg := h'.cfg.trans h.cfg
  link := h'.link.trans h.link
  timeout := h'.timeout.trans h.timeout
  held := by
    refine State.holds.append (fun j hj => ?_) (h.len ▸ h'.held)
    rw [h'.older _ (by rw [h.len]; omega)]
    exact h.held j hj
  older := fun i hi => by rw [h'.older i (by rw [h.len]; omega), h.older i hi]
  marker := fun hno => by
    rw [List.mem_append, not_or] at hno
    obtain ⟨hpend, hwake⟩ := h.marker hno.1
    obtain ⟨hpend', hwake'⟩ := h'.marker hno.2
    exact ⟨hpend'.trans hpend, hwake'.trans hwake⟩

/-- One `RXB` with room for its byte, with the marker a delimiter sets. -/
theorem exec_rxb_run {s : State} (b : Byte) (hroom : s.rxLen < s.cfg.c) :
    ∃ t, exec (.rxb b) s = .next t ∧ RxRun s t [b] ∧
      (b = Config.delim → t.pendCnt = s.rxLen + 1 ∧ t.wake = true) := by
  refine ⟨_, exec_rxb_room hroom, ?_, fun hb => ?_⟩
  · rw [rxbMark_rxbDisarm]
    refine ⟨rfl, rfl, rfl, rfl, fun j hj => ?_, fun i hi => ?_, fun hno => ?_⟩
    · obtain rfl : j = 0 := Nat.lt_one_iff.1 hj
      exact read_write_same _ _ _
    · exact read_write_other _ _ (Nat.ne_of_lt hi)
    · have hb : b ≠ Config.delim := fun hb => hno (List.mem_singleton.2 hb.symm)
      exact ⟨if_neg hb, if_neg hb⟩
  · rw [rxbMark_rxbDisarm]
    exact ⟨if_pos hb, if_pos hb⟩

theorem execAll_rxb_run {s : State} {bs : List Byte} (hroom : s.rxLen + bs.length ≤ s.cfg.c) :
    ∃ t, execAll (bs.map Instr.rxb) s = .next t ∧ RxRun s t bs := by
  induction bs generalizing s with
  | nil => exact ⟨s, rfl, .nil s⟩
  | cons b bs ih =>
    rw [List.length_cons] at hroom
    obtain ⟨t, ht, hone, -⟩ := exec_rxb_run (s := s) b (by omega)
    obtain ⟨u, hu, hrest⟩ := ih (s := t) (by rw [hone.len, hone.cfg, List.length_singleton]; omega)
    exact ⟨u, by rw [List.map_cons, execAll_cons ht, hu], hone.trans hrest⟩

/-- A run with one delimiter in it: the marker stands behind the delimiter. -/
theorem execAll_rxb_delimited {s : State} {bs tail : List Byte}
    (hroom : s.rxLen + (bs.length + 1 + tail.length) ≤ s.cfg.c) (htail : Config.delim ∉ tail) :
    ∃ t, execAll ((bs ++ [Config.delim] ++ tail).map Instr.rxb) s = .next t ∧
      RxRun s t (bs ++ [Config.delim] ++ tail) ∧ t.pendCnt = s.rxLen + (bs.length + 1) ∧
      t.wake = true := by
  obtain ⟨a, ha, hbefore⟩ := execAll_rxb_run (s := s) (bs := bs) (by omega)
  obtain ⟨b, hb, hdelim, hmark⟩ := exec_rxb_run (s := a) Config.delim
    (by rw [hbefore.len, hbefore.cfg]; omega)
  obtain ⟨t, ht, hafter⟩ := execAll_rxb_run (s := b) (bs := tail) (by
    rw [hdelim.len, hdelim.cfg, hbefore.len, hbefore.cfg, List.length_singleton]
    omega)
  obtain ⟨hpend, hwake⟩ := hmark rfl
  obtain ⟨hpend', hwake'⟩ := hafter.marker htail
  refine ⟨t, ?_, (hbefore.trans hdelim).trans hafter, ?_, hwake'.trans hwake⟩
  · rw [List.map_append, List.map_append, List.append_assoc, execAll_append ha, List.map_singleton,
      List.singleton_append, execAll_cons hb, ht]
  · rw [hpend', hpend, hbefore.len, Nat.add_assoc]

/-! ## The dispatch of a frame whose bytes are known -/

/-- With the receive buffer empty nothing is marked. -/
theorem State.Inv.pendTo_of_empty {s : State} (hinv : s.Inv) (h : s.rxLen = 0) :
    s.pendTo = false := by
  cases hto : s.pendTo with
  | false => rfl
  | true => exact absurd h (hinv.markedBytes (hinv.timeoutMarked hto))

/-- What `DISPATCH` of a `frame` that the receive buffer begins with leaves and emits
(41_outbound_dispatcher.md R149 to R152). -/
structure FrameSent (s u : State) (frame : List Byte) : Prop where
  answer : dispatch s = .ok (.dispatched frame.length, u)
  len : u.rxLen = s.rxLen - frame.length
  marker : u.pendCnt = if frame.length < s.rxLen then s.pendCnt else 0
  timeout : u.pendTo = false
  link : u.linkState = .transmitting
  radio : u.holds .rftx 0 (BitVec.ofNat 8 frame.length :: frame)
  moved : ∀ j < s.rxLen - frame.length,
    u.byteAt .rxbuf j = s.byteAt .rxbuf (frame.length + j)
  emitted : emittedBetween s u = [commandOut (.srxie false), commandOut (.srxie true)] ++
    (if s.linkState = .listening then [commandOut (.rstrobe .sidle)] else []) ++
    [commandOut (.rwfifo (BitVec.ofNat 8 frame.length :: frame)), commandOut (.rstrobe .stx)]

theorem dispatch_frameSent {s : State} {frame : List Byte} (hinv : s.Inv) (hm : s.pendCnt ≠ 0)
    (hf : s.frameLen frame.length) (hle : frame.length ≤ s.cfg.maxPay)
    (hheld : s.holds .rxbuf 0 frame) : ∃ u, FrameSent s u frame := by
  obtain ⟨u, hd, hsend⟩ := dispatch_sends hinv.rxLenLe hinv.rxWritten hm hf
    (frameLen_ne_zero hinv hm hf) hle
  obtain ⟨sent, hlen, hsent, hu, hradio, -, hmoved, -⟩ := sendFrame_eq_ok hsend
  obtain rfl : sent = frame := holds_unique hsent hheld hlen
  refine ⟨u, hd, congrArg State.rxLen hu, congrArg State.pendCnt hu,
    (congrArg State.pendTo hu).trans (ite_self _), congrArg State.linkState hu, hradio, hmoved,
    emittedBetween_of_append ?_⟩
  rw [hu]
  simp only [dispatchReady, emit_outputs, List.append_assoc]
  rfl

/-- Settles O13: the bytes stand at the front of the buffer, and the timeout marks all of them. -/
theorem unterminatedBytesLeaveAsOneFrame : Obligations.UnterminatedBytesLeaveAsOneFrame := by
  unfold Obligations.UnterminatedBytesLeaveAsOneFrame
  intro s bs hinv hempty hne hle hdelim
  have hpos : bs.length ≠ 0 := fun h => hne (List.length_eq_zero_iff.1 h)
  have hcap : s.rxLen + bs.length ≤ s.cfg.c := by
    rw [Params.c]
    omega
  obtain ⟨a, ha, hrun⟩ := execAll_rxb_run hcap
  have hlen : a.rxLen = bs.length := by rw [hrun.len, hempty, Nat.zero_add]
  have htmr := exec_tmr_nonempty (s := a) (by omega)
  have hinv' := exec_inv (execAll_inv hinv ha) htmr
  have hheld : a.holds .rxbuf 0 bs := hempty ▸ hrun.held
  obtain ⟨u, hsent⟩ := dispatch_frameSent (frame := bs) hinv' (hlen ▸ hpos) (.inl ⟨rfl, hlen.symm⟩)
    (hrun.cfg ▸ hle) hheld
  refine ⟨_, u, (execAll_append ha).trans (execAll_cons htmr), hlen, hlen, rfl, rfl, rfl,
    hrun.link, hheld, hsent.answer, ?_, ?_, hsent.timeout, hsent.link, hsent.radio,
    hrun.link ▸ hsent.emitted⟩
  · rw [hsent.len]
    exact Nat.sub_eq_zero_of_le (Nat.le_of_eq hlen)
  · rw [hsent.marker]
    exact if_neg (Nat.not_lt.2 (Nat.le_of_eq hlen))

/-- The only delimiter of a buffer's bytes is its first (41_outbound_dispatcher.md R145). -/
theorem firstDelim_of_holds {s : State} {bs : List Byte} {w : Nat}
    (hheld : s.holds .rxbuf 0 (bs ++ [Config.delim])) (hdelim : Config.delim ∉ bs)
    (hw : bs.length < w) : s.firstDelim w bs.length := by
  refine ⟨hw, ?_, fun j hj hbyte => hdelim ?_⟩
  · have hlast := hheld.right.head
    rwa [Nat.zero_add] at hlast
  · have hj' := hheld.left j hj
    rw [Nat.zero_add, hbyte] at hj'
    exact List.mem_of_getElem? hj'.symm

/-- Settles O14: the marker stands behind the delimiter, so the scan finds it and nothing behind
it. -/
theorem delimitedBytesLeaveAsOneFrame : Obligations.DelimitedBytesLeaveAsOneFrame := by
  unfold Obligations.DelimitedBytesLeaveAsOneFrame
  intro s bs tail hinv hempty hle hcap hdelim htail
  obtain ⟨t, ht, hrun, hpend, hwake⟩ :=
    execAll_rxb_delimited (bs := bs) (by rw [hempty, Nat.zero_add]; exact hcap) htail
  have hframe : (bs ++ [Config.delim]).length = bs.length + 1 := List.length_append
  have hlen : t.rxLen = bs.length + 1 + tail.length := by
    rw [hrun.len, hempty, List.length_append, hframe, Nat.zero_add]
  have hheld : t.holds .rxbuf 0 (bs ++ [Config.delim] ++ tail) := hempty ▸ hrun.held
  have hto : t.pendTo = false := hrun.timeout.trans (hinv.pendTo_of_empty hempty)
  rw [hempty, Nat.zero_add] at hpend
  have hfirst : t.firstDelim (min t.pendCnt t.rxLen) bs.length :=
    firstDelim_of_holds hheld.left hdelim (by omega)
  obtain ⟨u, hsent⟩ := dispatch_frameSent (frame := bs ++ [Config.delim]) (execAll_inv hinv ht)
    (by omega) (.inr ⟨hto, _, hfirst, hframe⟩) (by rw [hframe, hrun.cfg]; exact hle) hheld.left
  obtain ⟨hanswer, hrest, -, -, hlink, hradio, hmoved, hemitted⟩ := hsent
  rw [hrun.link] at hemitted
  rw [hframe, hlen, Nat.add_sub_cancel_left] at hrest hmoved
  rw [hframe] at hanswer hradio hemitted
  refine ⟨t, u, ht, hlen, hpend, hto, hwake, hheld, hanswer, hrest, fun j hj => ?_, hlink, hradio,
    hemitted⟩
  rw [Nat.zero_add, hmoved j hj, ← hheld.right j hj, Nat.zero_add, hframe]

end Sys2Proof.Machine
end

section
/-! PROOFS. The packet validator (43_packet_validator.md): the gates after the frame is read, and
what a rejection leaves alone. -/

namespace Sys2Proof.Machine

/-! ## Gates 4 and 5 -/

/-- The quality byte of a frame that has been read (43_packet_validator.md R198). -/
theorem PacketRead.memRead_quality {s u : State} {nb q : Byte} (h : PacketRead s u nb)
    (h5 : 5 ≤ nb.toNat) (hcap : nb.toNat ≤ s.cfg.rfRxCap)
    (hq : (nextResponses (dropResponses s 2) nb.toNat)[nb.toNat - 1]? = some q) :
    memRead u .rfrx (nb.toNat - 1) = .ok q := by
  have hcfg : u.cfg = s.cfg := by rw [h.frameOnly]
  refine memRead_eq_ok.2 ⟨?_, ?_⟩
  · rw [hcfg]
    exact Nat.lt_of_lt_of_le (by omega) hcap
  · rw [h.byteAt (by omega), hq]

theorem checkPacket_of_bad_crc {s : State} {n : Nat} {q : Byte}
    (hq : memRead s .rfrx (n - 1) = .ok q) (hcrc : crcValid q = false) :
    checkPacket s n = .ok (rejectPacket (raise s .crcFailure q)) := by
  rw [checkPacket, hq, ok_bind, if_neg (by rw [hcrc]; decide)]
  rfl

theorem checkPacket_of_no_room {s : State} {n : Nat} {q : Byte}
    (hq : memRead s .rfrx (n - 1) = .ok q) (hcrc : crcValid q = true) (hfull : txFree s < n - 3) :
    checkPacket s n =
      .ok (rejectPacket (raise s .transmitBufferOverflow (BitVec.ofNat 8 (n - 3)))) := by
  rw [checkPacket, hq, ok_bind, if_pos hcrc, if_pos hfull]
  rfl

/-- What `PKT` leaves where `VALIDATE` rejects a frame it has read, whatever the report
(43_packet_validator.md R192, R198). -/
theorem PacketRead.rejected {s u : State} {nb info : Byte} {e : ErrorKind}
    (hread : PacketRead s u nb) (hl : s.linkState = .listening)
    (hv : validate s = .ok (rejectPacket (raise u e info))) :
    ∃ t v, validate s = .ok (.rejected, v) ∧ exec .pkt s = .next t ∧
      t = { dropResponses s (nb.toNat + 2) with
        rfrx := t.rfrx, rfrxLen := 0, linkState := .idle, wake := true,
        outputs := s.outputs ++ [commandOut (.rstrobe .snop),
          commandOut (.rread s.cfg.regRxCount), commandOut (.rrfifo nb), errorOut e info] } ∧
      t.holds .rfrx 0 (nextResponses (dropResponses s 2) nb.toNat) ∧
      ∀ i, nb.toNat ≤ i → t.byteAt .rfrx i = s.byteAt .rfrx i := by
  refine ⟨_, _, hv, exec_pkt_of_validate hl hv, ?_, hread.frame, hread.beyond⟩
  rw [hread.eq]
  simp [raise]

/-- Settles O30: gate 4 after step 3. -/
theorem clearCrcBitRejectsThePacket : Obligations.ClearCrcBitRejectsThePacket := by
  unfold Obligations.ClearCrcBitRejectsThePacket
  intro s nb fifo q hl hst hnb h5 hcap hfifo hq hcrc
  obtain rfl : nb = countByte s := hnb
  subst hfifo
  obtain ⟨u, hread, hcheck⟩ := validate_reads ((statusIdle_iff _).2 hst) h5 hcap
  exact hread.rejected hl
    (hcheck.trans (checkPacket_of_bad_crc (hread.memRead_quality h5 hcap hq) hcrc))

/-- Settles O31: gate 5 after step 3, which leaves the free space as it was. -/
theorem fullTransmitBufferRejectsThePacket : Obligations.FullTransmitBufferRejectsThePacket := by
  unfold Obligations.FullTransmitBufferRejectsThePacket
  intro s nb fifo q hl hst hnb h5 hcap hfifo hq hcrc hfull
  obtain rfl : nb = countByte s := hnb
  subst hfifo
  obtain ⟨u, hread, hcheck⟩ := validate_reads ((statusIdle_iff _).2 hst) h5 hcap
  have hfree : txFree u = txFree s := by
    rw [hread.frameOnly]
    rfl
  exact hread.rejected hl (hcheck.trans
    (checkPacket_of_no_room (hread.memRead_quality h5 hcap hq) hcrc (hfree ▸ hfull)))

end Sys2Proof.Machine
end

section
/-! PROOFS. What the operations emit (60_exceptions.md sections 1 and 3, 42_link_state_machine.md
section 6): for each operation its commands, with at most one report between them. -/

namespace Sys2Proof

/-- The two commands that hand the radio a frame (41_outbound_dispatcher.md R152). -/
def Command.handsOver : Command → Bool
  | .rwfifo _ => true
  | .rstrobe .stx => true
  | _ => false

end Sys2Proof

namespace Sys2Proof.Machine

/-! ## Lists of port words -/

/-- Every word is a command word, of a command that meets `P`. -/
def AllCommands (P : Command → Prop) (ws : List PortWord) : Prop :=
  ∀ w ∈ ws, ∃ c, P c ∧ w = commandOut c

/-- No report, or a single one that meets `Q`. -/
inductive AtMostOneReport (Q : ErrorKind → Byte → Prop) : List PortWord → Prop
  | none : AtMostOneReport Q []
  | one {e : ErrorKind} {info : Byte} (h : Q e info) : AtMostOneReport Q [errorOut e info]

/-- From `s` to `t` commands that meet `P` are emitted, with at most one report among them, which
meets `Q`. -/
def Emits (P : Command → Prop) (Q : ErrorKind → Byte → Prop) (s t : State) : Prop :=
  ∃ before report after, t.outputs = s.outputs ++ before ++ report ++ after ∧
    AllCommands P before ∧ AtMostOneReport Q report ∧ AllCommands P after

theorem AllCommands.nil {P : Command → Prop} : AllCommands P [] := nofun

theorem AllCommands.cons {P : Command → Prop} {c : Command} {ws : List PortWord} (hc : P c)
    (h : AllCommands P ws) : AllCommands P (commandOut c :: ws) := by
  intro w hw
  obtain rfl | hw := List.mem_cons.1 hw
  · exact ⟨c, hc, rfl⟩
  · exact h w hw

theorem AllCommands.append {P : Command → Prop} {xs ys : List PortWord} (hx : AllCommands P xs)
    (hy : AllCommands P ys) : AllCommands P (xs ++ ys) := fun w hw =>
  (List.mem_append.1 hw).elim (hx w) (hy w)

theorem AllCommands.ite {P : Command → Prop} {C : Prop} [Decidable C] {xs ys : List PortWord}
    (hx : AllCommands P xs) (hy : AllCommands P ys) : AllCommands P (if C then xs else ys) := by
  split
  · exact hx
  · exact hy

theorem AtMostOneReport.ite {Q : ErrorKind → Byte → Prop} {C : Prop} [Decidable C]
    {xs ys : List PortWord} (hx : AtMostOneReport Q xs) (hy : AtMostOneReport Q ys) :
    AtMostOneReport Q (if C then xs else ys) := by
  split
  · exact hx
  · exact hy

/-- Commands alone. -/
theorem Emits.of_commands {P : Command → Prop} {Q : ErrorKind → Byte → Prop} {s t : State}
    {ws : List PortWord} (h : t.outputs = s.outputs ++ ws) (hws : AllCommands P ws) :
    Emits P Q s t :=
  ⟨ws, [], [], by rw [h, List.append_nil, List.append_nil], hws, .none, .nil⟩

/-- Commands with a report among them. -/
theorem Emits.of_report {P : Command → Prop} {Q : ErrorKind → Byte → Prop} {s t : State}
    {before after : List PortWord} {e : ErrorKind} {info : Byte}
    (h : t.outputs = s.outputs ++ (before ++ errorOut e info :: after)) (hq : Q e info)
    (hbefore : AllCommands P before) (hafter : AllCommands P after) : Emits P Q s t :=
  ⟨before, [errorOut e info], after, by simp [h], hbefore, .one hq, hafter⟩

theorem Emits.silent {P : Command → Prop} {Q : ErrorKind → Byte → Prop} {s t : State}
    (h : t.outputs = s.outputs) : Emits P Q s t :=
  .of_commands (by rw [h, List.append_nil]) .nil

theorem Emits.mono {P P' : Command → Prop} {Q Q' : ErrorKind → Byte → Prop} {s t : State}
    (h : Emits P Q s t) (hP : ∀ c, P c → P' c) (hQ : ∀ e info, Q e info → Q' e info) :
    Emits P' Q' s t := by
  obtain ⟨before, report, after, hout, hbefore, hreport, hafter⟩ := h
  have hall {ws : List PortWord} (hws : AllCommands P ws) : AllCommands P' ws := fun w hw =>
    (hws w hw).imp fun c hc => ⟨hP c hc.1, hc.2⟩
  refine ⟨before, report, after, hout, hall hbefore, ?_, hall hafter⟩
  cases hreport with
  | none => exact .none
  | one h => exact .one (hQ _ _ h)

theorem Emits.outputs_extend {P : Command → Prop} {Q : ErrorKind → Byte → Prop} {s t : State}
    (h : Emits P Q s t) : s.outputs <+: t.outputs := by
  obtain ⟨before, report, after, hout, -⟩ := h
  exact ⟨before ++ (report ++ after), by rw [hout, List.append_assoc, List.append_assoc]⟩

/-- The emitted words, and what each of them is. -/
theorem Emits.emitted {P : Command → Prop} {Q : ErrorKind → Byte → Prop} {s t : State}
    (h : Emits P Q s t) : ∃ before report after,
      emittedBetween s t = before ++ report ++ after ∧
      AllCommands P before ∧ AtMostOneReport Q report ∧ AllCommands P after := by
  obtain ⟨before, report, after, hout, hwords⟩ := h
  exact ⟨before, report, after, emittedBetween_of_append (by simpa using hout), hwords⟩

theorem Emits.mem {P : Command → Prop} {Q : ErrorKind → Byte → Prop} {s t : State} {w : PortWord}
    (h : Emits P Q s t) (hw : w ∈ emittedBetween s t) :
    (∃ c, P c ∧ w = commandOut c) ∨ ∃ e info, Q e info ∧ w = errorOut e info := by
  obtain ⟨before, report, after, hem, hbefore, hreport, hafter⟩ := h.emitted
  rw [hem, List.mem_append, List.mem_append] at hw
  obtain (hw | hw) | hw := hw
  · exact .inl (hbefore w hw)
  · cases hreport with
    | none => exact absurd hw (List.not_mem_nil)
    | one hq => exact .inr ⟨_, _, hq, List.mem_singleton.1 hw⟩
  · exact .inl (hafter w hw)

theorem Emits.command {P : Command → Prop} {Q : ErrorKind → Byte → Prop} {s t : State}
    {c : Command} (h : Emits P Q s t) (hc : commandOut c ∈ emittedBetween s t) : P c := by
  obtain ⟨d, hd, he⟩ | ⟨e, info, -, he⟩ := h.mem hc
  · exact commandOut_inj he ▸ hd
  · exact absurd he nofun

theorem Emits.report {P : Command → Prop} {Q : ErrorKind → Byte → Prop} {s t : State}
    {w : OutWord} (h : Emits P Q s t) (hw : .report w ∈ emittedBetween s t) :
    ∃ e info, w = errorWord e info ∧ Q e info := by
  obtain ⟨d, -, he⟩ | ⟨e, info, hq, he⟩ := h.mem hw
  · exact absurd he nofun
  · exact ⟨e, info, PortWord.report.inj he, hq⟩

/-- Whether a word is on the error report port (30_encoding.md R107). -/
def isReport : PortWord → Bool
  | .report _ => true
  | .command _ _ => false

theorem AllCommands.filter_isReport {P : Command → Prop} {ws : List PortWord}
    (h : AllCommands P ws) : ws.filter isReport = [] :=
  List.filter_eq_nil_iff.2 fun w hw => by
    obtain ⟨c, -, rfl⟩ := h w hw
    exact Bool.false_ne_true

theorem Emits.reports_le_one {P : Command → Prop} {Q : ErrorKind → Byte → Prop} {s t : State}
    (h : Emits P Q s t) : ((emittedBetween s t).filter isReport).length ≤ 1 := by
  obtain ⟨before, report, after, hem, hbefore, hreport, hafter⟩ := h.emitted
  rw [hem, List.filter_append, List.filter_append, hbefore.filter_isReport,
    hafter.filter_isReport, List.nil_append, List.append_nil]
  cases hreport with
  | none => exact Nat.zero_le 1
  | one => exact Nat.le_refl 1

/-! ## `VALIDATE` -/

/-- The commands of `VALIDATE`: the queries, and the kick of the drainer, which needs a payload
(43_packet_validator.md R193 to R206). -/
inductive ValidateCommand (r : ValidateResult) : Command → Prop
  | status : ValidateCommand r (.rstrobe .snop)
  | count (a : Byte) : ValidateCommand r (.rread a)
  | frame (n : Byte) : ValidateCommand r (.rrfifo n)
  | kick (b : Byte) (h : r ≠ .rejected) : ValidateCommand r (.ssend b)

/-- The errors of `VALIDATE` (60_exceptions.md R252). -/
def ValidateError (e : ErrorKind) : Prop :=
  e = .transmitBufferOverflow ∨ e = .radioStateMismatch ∨ e = .shortPacket ∨ e = .crcFailure ∨
    e = .oversizePacket

theorem validate_emits {s t : State} {r : ValidateResult} (h : validate s = .ok (r, t)) :
    Emits (ValidateCommand r) (fun e _ => ValidateError e) s t := by
  have hasked : AllCommands (ValidateCommand r)
      [commandOut (.rstrobe .snop), commandOut (.rread s.cfg.regRxCount)] :=
    .cons .status (.cons (.count _) .nil)
  obtain ⟨-, -, ht⟩ | ⟨-, -, e, he, ht⟩ | ⟨-, -, -, u, hu, hcheck⟩ := validate_eq_ok h
  · exact .of_report (before := [_]) (congrArg State.outputs ht) (.inr (.inl rfl))
      (.cons .status .nil) .nil
  · refine .of_report (before := [_, _]) (congrArg State.outputs ht) ?_ hasked .nil
    obtain ⟨-, rfl⟩ | ⟨-, rfl⟩ := he
    · exact .inr (.inr (.inl rfl))
    · exact .inr (.inr (.inr (.inr rfl)))
  · have hread : AllCommands (ValidateCommand r) [commandOut (.rstrobe .snop),
        commandOut (.rread s.cfg.regRxCount), commandOut (.rrfifo (countByte s))] :=
      hasked.append (.cons (.frame _) .nil)
    have hout : u.outputs = s.outputs ++ [commandOut (.rstrobe .snop),
        commandOut (.rread s.cfg.regRxCount), commandOut (.rrfifo (countByte s))] := by rw [hu.eq]
    obtain ⟨q, -, ⟨-, -, ht⟩ | ⟨-, -, -, ht⟩ | ⟨-, -, hf⟩⟩ := checkPacket_eq_ok hcheck
    · exact .of_report (by rw [← List.append_assoc, ← hout, ht]; rfl)
        (.inr (.inr (.inr (.inl rfl)))) hread .nil
    · exact .of_report (by rw [← List.append_assoc, ← hout, ht]; rfl) (.inl rfl) hread .nil
    · obtain ⟨_, _, first, text, fit, -, -, -, -, rfl, ht, -⟩ := forwardPacket_eq_ok hf
      exact ⟨_, _, _, by rw [ht, ← hout], hread, .ite .none (.one (.inl rfl)),
        .ite .nil (.cons (.kick first (by simp)) .nil)⟩

/-- The column of a rejection (43_packet_validator.md R192): the transmit side is not in it. -/
theorem validate_rejected {s t : State} (h : validate s = .ok (.rejected, t)) : t = { s with
    rfrx := t.rfrx, rfrxLen := 0, linkErr := t.linkErr,
    responses := t.responses, freeIdx := t.freeIdx, outputs := t.outputs } := by
  obtain ⟨-, -, ht⟩ | ⟨-, -, e, -, ht⟩ | ⟨-, -, -, u, hu, hcheck⟩ := validate_eq_ok h
  · obtain ⟨_, _, hd⟩ := dropResponses_eq s 1
    rw [ht, show dropResponse s = _ from hd]
  · obtain ⟨_, _, hd⟩ := dropResponses_eq s 2
    rw [ht, hd]
  · have hread := hu.frameOnly
    obtain ⟨q, -, ⟨-, -, ht⟩ | ⟨-, -, -, ht⟩ | ⟨-, -, hf⟩⟩ := checkPacket_eq_ok hcheck
    · rw [ht, hread]
      rfl
    · rw [ht, hread]
      rfl
    · obtain ⟨_, _, _, _, _, -, -, -, -, hr, -⟩ := forwardPacket_eq_ok hf
      exact absurd hr nofun

/-- Settles O33: every path clears the frame's length, and the transmit side is outside the column
and the commands of a rejection. -/
theorem rejectedPacketAppendsNothing : Obligations.RejectedPacketAppendsNothing := by
  unfold Obligations.RejectedPacketAppendsNothing
  intro s u r h
  refine ⟨by rw [validate_frame h], fun hr => ?_⟩
  have hsilent (b : Byte) : commandOut (.ssend b) ∉ emittedBetween s u := fun hb => by
    obtain _ | _ | _ | ⟨-, hforwarded⟩ := (validate_emits h).command hb
    exact hforwarded hr
  subst hr
  have htx := validate_rejected h
  exact ⟨by rw [htx], by rw [htx], by rw [htx], by rw [htx], hsilent⟩

/-! ## Every operation -/

/-- A frame is handed to the radio (41_outbound_dispatcher.md R152; 42_link_state_machine.md
R168). -/
def HandsOver (i : Instr) (s t : State) : Prop :=
  i = .step ∧ s.seq = .post ∧ s.linkState ≠ .transmitting ∧ t.linkState = .transmitting

/-- The errors an operation may report (60_exceptions.md R252, R258). -/
def OwnError (i : Instr) (s : State) (e : ErrorKind) (info : Byte) : Prop :=
  (e = .receiveBufferOverflow ∧ i.context = .handler ∧ i = .rxb info) ∨
    (e = .malformedFrame ∧ i = .step ∧ s.seq = .post) ∨
    (e = .radioIdleTimeout ∧ i = .step ∧ s.seq = .poll) ∨
    (i = .pkt ∧ s.linkState = .listening ∧ ValidateError e)

/-- What an operation emits: its own errors, and the hand-over's commands only with a hand-over. -/
abbrev OwnWords (i : Instr) (s t : State) : Prop :=
  Emits (fun c => c.handsOver = true → HandsOver i s t) (OwnError i s) s t

theorem exec_rxb_emits {s t : State} {b : Byte} (h : exec (.rxb b) s = .next t) :
    OwnWords (.rxb b) s t := by
  obtain ⟨u, hexec, hu, -⟩ := rxbAppendsAndMarksOrArms s b
  obtain rfl : u = t := exec_unique hexec h
  have hout := congrArg State.outputs hu
  rw [List.append_assoc (_ ++ _), ← List.append_nil s.outputs] at hout
  exact ⟨[], _, _, hout, .nil, .ite .none (.one (.inl ⟨rfl, rfl, rfl⟩)),
    .append (.ite (.cons nofun .nil) .nil) (.ite .nil (.cons nofun .nil))⟩

theorem exec_txd_emits {s t : State} (h : exec .txd s = .next t) : OwnWords .txd s t := by
  obtain ⟨-, rfl⟩ | ⟨-, -, rfl⟩ | ⟨-, -, b, -, rfl⟩ := exec_txd_eq_next.1 h
  · exact .silent rfl
  · exact .silent rfl
  · exact .of_commands rfl (.cons nofun .nil)

theorem ValidateCommand.not_handsOver {r : ValidateResult} {c : Command}
    (h : ValidateCommand r c) : c.handsOver ≠ true := by
  cases h <;> exact Bool.false_ne_true

theorem exec_pkt_emits {s t : State} (h : exec .pkt s = .next t) : OwnWords .pkt s t := by
  cases hl : s.linkState with
  | idle => exact .silent (by rw [← exec_unique (exec_pkt_idle hl) h])
  | transmitting => exact .silent (by rw [← exec_unique (exec_pkt_transmitting hl) h])
  | listening =>
    obtain ⟨r, u, hv, rfl⟩ := (exec_pkt_listening hl).1 h
    exact (validate_emits hv).mono (fun c hc hover => absurd hover hc.not_handsOver)
      fun e info he => .inr (.inr (.inr ⟨rfl, hl, he⟩))

theorem stepTop_emits (s : State) : OwnWords .step s (stepTop s) := by
  by_cases hl : s.linkState = .idle
  · rw [stepTop_idle hl]
    exact .of_commands (List.append_assoc _ _ _)
      (.cons nofun (.ite (.cons nofun .nil) .nil))
  · rw [stepTop_not_idle hl]
    exact .silent rfl

theorem exec_poll_emits {s t : State} (hp : s.seq = .poll) (h : exec .step s = .next t) :
    OwnWords .step s t := by
  by_cases hst : (nextResponse s).extractLsb' 4 3 = 0#3
  · obtain rfl := exec_unique (pollAnsweredIdleStartsListening s hp hst) h
    exact .of_commands rfl (.cons nofun (.cons nofun .nil))
  · obtain rfl := exec_unique (exec_poll_not_idle hp hst) h
    split
    · exact .of_commands rfl (.cons nofun .nil)
    · exact .of_report (before := [_]) rfl (.inr (.inr (.inl ⟨rfl, rfl, hp⟩)))
        (.cons nofun .nil) .nil

theorem exec_post_emits {s t : State} (hp : s.seq = .post) (h : exec .step s = .next t) :
    OwnWords .step s t := by
  obtain ⟨-, rfl⟩ | ⟨hl, -, r, u, hd, rfl⟩ := (exec_post_eq_next hp).1 h
  · exact .silent rfl
  · obtain ⟨-, -, rfl⟩ | ⟨-, -, info, rfl, -⟩ | ⟨-, flen, -, -, -, -, hs⟩ := dispatch_eq_ok hd
    · exact .silent rfl
    · rw [dispatchInvalid_dispatchReady]
      exact .of_report (before := [_]) rfl (.inr (.inl ⟨rfl, rfl, hp⟩)) (.cons nofun .nil)
        (.cons nofun .nil)
    · obtain ⟨frame, -, -, hu, -⟩ := sendFrame_eq_ok hs
      have hover : HandsOver .step s { u with seq := .top } :=
        ⟨rfl, hp, hl, congrArg State.linkState hu⟩
      have hout := congrArg State.outputs hu
      simp only [dispatchReady, emit_outputs, List.append_assoc] at hout
      exact .of_commands hout (.append (.cons nofun .nil) (.append (.cons nofun .nil)
        (.append (.ite (.cons nofun .nil) .nil)
          (.cons (fun _ => hover) (.cons (fun _ => hover) .nil)))))

theorem exec_step_emits {s t : State} (h : exec .step s = .next t) : OwnWords .step s t := by
  cases hp : s.seq with
  | top => exact exec_unique (exec_top hp) h ▸ stepTop_emits s
  | poll => exact exec_poll_emits hp h
  | wait =>
    obtain rfl := exec_unique (exec_wait hp) h
    rw [stepWait_eq]
    split <;> exact .silent rfl
  | post => exact exec_post_emits hp h

theorem exec_emits {i : Instr} {s t : State} (h : exec i s = .next t) : OwnWords i s t := by
  cases i with
  | step => exact exec_step_emits h
  | rxb b => exact exec_rxb_emits h
  | tmr => exact .silent (by rw [exec_tmr_frame h])
  | txd => exact exec_txd_emits h
  | pkt => exact exec_pkt_emits h

/-- Settles O51: the words of the operation are its own. -/
theorem operationsReportAtMostOneErrorOfTheirOwn :
    Obligations.OperationsReportAtMostOneErrorOfTheirOwn := by
  unfold Obligations.OperationsReportAtMostOneErrorOfTheirOwn
  intro i s t h
  have hwords := exec_emits h
  exact ⟨hwords.outputs_extend, hwords.reports_le_one, fun w hw => hwords.report hw⟩

end Sys2Proof.Machine
end

section
/-! PROOFS. What the operations do to the machine as a whole: the link state, the frame in flight,
the Link Error Flag, the columns of the access table, quiescence, and the two contexts that commute
(42_link_state_machine.md sections 1 and 6, 10_state.md section 7). -/

namespace Sys2Proof.Machine

/-! ## The columns of `TOP` and `WAIT` -/

/-- The column of `TOP` (10_state.md R55). -/
theorem stepTop_frame (s : State) : stepTop s = { s with
    linkErr := (stepTop s).linkErr, ind := (stepTop s).ind, seq := (stepTop s).seq,
    pollK := (stepTop s).pollK, outputs := (stepTop s).outputs } := by
  by_cases hl : s.linkState = .idle
  · rw [stepTop_idle hl]
  · rw [stepTop_not_idle hl]

/-- The column of `WAIT` (10_state.md R55). -/
theorem stepWait_frame (s : State) : stepWait s = { s with
    wake := (stepWait s).wake, seq := (stepWait s).seq } := by
  rw [stepWait_eq]
  split <;> rfl

/-! ## The link state -/

/-- `POLL` leaves the link as it was or starts listening (42_link_state_machine.md R165, R166). -/
theorem stepPoll_link (s : State) :
    (stepPoll s).linkState = s.linkState ∨ (stepPoll s).linkState = .listening := by
  obtain ⟨r, k, hd⟩ := dropResponses_eq s 1
  rw [stepPoll_eq, statusAsked_eq, show dropResponse s = _ from hd]
  split
  · exact .inr rfl
  · rw [pollFailed_eq]
    split <;> exact .inl rfl

theorem stepTop_link (s : State) : (stepTop s).linkState = s.linkState := by
  by_cases hl : s.linkState = .idle
  · rw [stepTop_idle hl]
  · rw [stepTop_not_idle hl]

theorem exec_step_link {s t : State} (hinv : s.Inv) (h : exec .step s = .next t) :
    t.linkState = s.linkState ∨
      (s.seq = .poll ∧ s.linkState = .idle ∧ t.linkState = .listening) ∨
      (s.seq = .post ∧ s.linkState ≠ .transmitting ∧ t.linkState = .transmitting) := by
  cases hp : s.seq with
  | top => exact .inl (exec_unique (exec_top hp) h ▸ stepTop_link s)
  | poll =>
    obtain rfl := exec_unique (exec_poll hp) h
    exact (stepPoll_link s).imp_right fun hl => .inl ⟨rfl, hinv.pollIdle hp, hl⟩
  | wait =>
    obtain rfl := exec_unique (exec_wait hp) h
    exact .inl (by rw [stepWait_frame])
  | post =>
    obtain ⟨hkept, -⟩ | ⟨hl, hsent, -⟩ := exec_post_link hp h
    · exact .inl hkept
    · exact .inr (.inr ⟨rfl, hl, hsent⟩)

/-- Settles O46: `STEP` and `PKT` have the edges of the table, and the link is outside the columns
of the serial operations. -/
theorem linkStateMovesOnlyAlongItsTable : Obligations.LinkStateMovesOnlyAlongItsTable := by
  unfold Obligations.LinkStateMovesOnlyAlongItsTable
  intro i s t hinv h
  cases i with
  | step =>
    obtain hkept | hpoll | hpost := exec_step_link hinv h
    · exact .inl hkept
    · exact .inr (.inl ⟨rfl, hpoll⟩)
    · exact .inr (.inr (.inl ⟨rfl, hpost⟩))
  | rxb b => exact .inl (by rw [exec_rxb_frame h])
  | tmr => exact .inl (by rw [exec_tmr_frame h])
  | txd => exact .inl (by rw [exec_txd_frame h])
  | pkt => exact .inr (.inr (.inr ⟨rfl, (exec_pkt_link h).1⟩))

/-- Settles O47: the table has one edge out of Transmitting, and the words that hand a frame over
come with the edge into it. -/
theorem atMostOneFrameInFlight : Obligations.AtMostOneFrameInFlight := by
  unfold Obligations.AtMostOneFrameInFlight
  intro i s t hinv h
  refine ⟨fun hl hi => ?_, fun hwords => ?_⟩
  · obtain hkept | ⟨-, -, hidle, -⟩ | ⟨-, -, hnot, -⟩ | ⟨hpkt, -⟩ :=
      linkStateMovesOnlyAlongItsTable i s t hinv h
    · exact hkept.trans hl
    · exact absurd (hl.symm.trans hidle) (by decide)
    · exact absurd hl hnot
    · exact absurd hpkt hi
  · obtain hstx | ⟨data, hfifo⟩ := hwords
    · exact (exec_emits h).command hstx rfl
    · exact (exec_emits h).command hfifo rfl

/-! ## The Link Error Flag -/

/-- The errors of `VALIDATE` that the radio's state is to blame for (10_state.md R41). -/
def RadioError (e : ErrorKind) : Prop :=
  e = .radioStateMismatch ∨ e = .shortPacket ∨ e = .oversizePacket

/-- `VALIDATE` keeps the flag, or sets it with a report. -/
theorem validate_linkErr {s t : State} {r : ValidateResult} (h : validate s = .ok (r, t)) :
    t.linkErr = s.linkErr ∨
      (t.linkErr = true ∧ ∃ e info, RadioError e ∧ errorOut e info ∈ emittedBetween s t) := by
  obtain ⟨-, -, ht⟩ | ⟨-, -, e, he, ht⟩ | ⟨-, -, -, u, hu, hcheck⟩ := validate_eq_ok h
  · have hem := emittedBetween_of_append (congrArg State.outputs ht)
    exact .inr ⟨congrArg State.linkErr ht, _, statusByte s, .inl rfl, by rw [hem]; simp⟩
  · have hem := emittedBetween_of_append (congrArg State.outputs ht)
    refine .inr ⟨congrArg State.linkErr ht, e, countByte s, ?_, by rw [hem]; simp⟩
    obtain ⟨-, rfl⟩ | ⟨-, rfl⟩ := he
    · exact .inr (.inl rfl)
    · exact .inr (.inr rfl)
  · have hkept : u.linkErr = s.linkErr := by rw [hu.frameOnly]
    left
    obtain ⟨q, -, ⟨-, -, rfl⟩ | ⟨-, -, -, rfl⟩ | ⟨-, -, hf⟩⟩ := checkPacket_eq_ok hcheck
    · exact hkept
    · exact hkept
    · obtain ⟨_, _, _, _, _, -, -, -, -, -, ht, -⟩ := forwardPacket_eq_ok hf
      rw [ht]
      exact hkept

/-- What `PKT` does to the flag, in any link state. -/
theorem exec_pkt_linkErr {s t : State} (h : exec .pkt s = .next t) : t.linkErr = s.linkErr ∨
    (t.linkErr = true ∧ s.linkState = .listening ∧
      ∃ e info, RadioError e ∧ errorOut e info ∈ emittedBetween s t) := by
  cases hl : s.linkState with
  | idle => exact .inl (by rw [← exec_unique (exec_pkt_idle hl) h])
  | transmitting => exact .inl (by rw [← exec_unique (exec_pkt_transmitting hl) h])
  | listening =>
    obtain ⟨r, u, hv, rfl⟩ := (exec_pkt_listening hl).1 h
    exact (validate_linkErr hv).imp_right fun ⟨hset, hreport⟩ => ⟨hset, rfl, hreport⟩

/-- What `POLL` does to the flag. -/
theorem exec_poll_linkErr {s t : State} (hp : s.seq = .poll) (h : exec .step s = .next t) :
    t.linkErr = s.linkErr ∨
      (t.linkErr = true ∧ ∃ st, errorOut .radioIdleTimeout st ∈ emittedBetween s t) := by
  have hdrop : (dropResponse s).linkErr = s.linkErr := dropResponse_linkErr s
  by_cases hst : (nextResponse s).extractLsb' 4 3 = 0#3
  · obtain rfl := exec_unique (pollAnsweredIdleStartsListening s hp hst) h
    exact .inl hdrop
  · obtain rfl := exec_unique (exec_poll_not_idle hp hst) h
    split
    · exact .inl hdrop
    · refine .inr ⟨rfl, nextResponse s, ?_⟩
      rw [emittedBetween_of_append rfl]
      simp

/-- What `STEP` does to the flag, by phase. -/
theorem exec_step_linkErr {s t : State} (h : exec .step s = .next t) : t.linkErr = s.linkErr ∨
    (t.linkErr = false ∧ s.seq = .top ∧ s.linkState = .idle ∧
      (s.linkErr = true → commandOut .rreinit ∈ emittedBetween s t)) ∨
    (t.linkErr = true ∧ s.seq = .poll ∧
      ∃ st, errorOut .radioIdleTimeout st ∈ emittedBetween s t) := by
  cases hp : s.seq with
  | top =>
    obtain rfl := exec_unique (exec_top hp) h
    by_cases hl : s.linkState = .idle
    · rw [stepTop_idle hl]
      refine .inr (.inl ⟨rfl, rfl, hl, fun herr => ?_⟩)
      rw [emittedBetween_of_append (List.append_assoc _ _ _), if_pos herr]
      simp
    · rw [stepTop_not_idle hl]
      exact .inl rfl
  | poll =>
    exact (exec_poll_linkErr hp h).imp_right fun ⟨hset, hreport⟩ => .inr ⟨hset, rfl, hreport⟩
  | wait =>
    obtain rfl := exec_unique (exec_wait hp) h
    exact .inl (by rw [stepWait_frame])
  | post =>
    obtain ⟨-, rfl⟩ | ⟨-, -, r, u, hd, rfl⟩ := (exec_post_eq_next hp).1 h
    · exact .inl rfl
    · refine .inl ?_
      rw [dispatch_frame hd]

/-- Settles O49: `STEP` and `PKT` write the flag, and it is outside the columns of the serial
operations. -/
theorem linkErrorFlagIsNeverLost : Obligations.LinkErrorFlagIsNeverLost := by
  unfold Obligations.LinkErrorFlagIsNeverLost
  intro i s t h
  have unchanged {P Q : Prop} (hkept : t.linkErr = s.linkErr) :
      (s.linkErr = true → t.linkErr = false → P) ∧ (s.linkErr = false → t.linkErr = true → Q) := by
    rw [hkept]
    exact ⟨fun h1 h2 => absurd (h1.symm.trans h2) (by decide),
      fun h1 h2 => absurd (h1.symm.trans h2) (by decide)⟩
  cases i with
  | rxb b => exact unchanged (by rw [exec_rxb_frame h])
  | tmr => exact unchanged (by rw [exec_tmr_frame h])
  | txd => exact unchanged (by rw [exec_txd_frame h])
  | step =>
    obtain hkept | ⟨hclear, hp, hl, hreinit⟩ | ⟨hset, hp, hreport⟩ := exec_step_linkErr h
    · exact unchanged hkept
    · exact ⟨fun herr _ => ⟨rfl, hp, hl, hreinit herr⟩,
        fun _ hset => absurd (hclear.symm.trans hset) (by decide)⟩
    · exact ⟨fun _ hclear => absurd (hclear.symm.trans hset) (by decide),
        fun _ _ => .inl ⟨rfl, hp, hreport⟩⟩
  | pkt =>
    obtain hkept | ⟨hset, hl, e, info, he, hreport⟩ := exec_pkt_linkErr h
    · exact unchanged hkept
    · refine ⟨fun _ hclear => absurd (hclear.symm.trans hset) (by decide),
        fun _ _ => .inr ⟨rfl, hl, info, ?_⟩⟩
      obtain rfl | rfl | rfl := he
      · exact .inl hreport
      · exact .inr (.inl hreport)
      · exact .inr (.inr hreport)

/-! ## The columns of the access table -/

/-- The column of `POST` with `DISPATCH` (10_state.md R55). -/
theorem exec_post_frame {s t : State} (hp : s.seq = .post) (h : exec .step s = .next t) :
    t = { s with
      rxLen := t.rxLen, rxbuf := t.rxbuf, pendCnt := t.pendCnt, pendTo := t.pendTo,
      linkState := t.linkState, ind := t.ind, seq := t.seq, rftx := t.rftx,
      outputs := t.outputs } := by
  obtain ⟨-, rfl⟩ | ⟨-, -, r, u, hd, rfl⟩ := (exec_post_eq_next hp).1 h
  · rfl
  · rw [dispatch_frame hd]

/-- The bytes `RXB` stores. -/
theorem exec_rxb_storesOnly {s t : State} {b : Byte} (h : exec (.rxb b) s = .next t) {a : Nat}
    (ha : ¬ (s.rxLen < 3 * s.cfg.maxPay ∧ a = s.rxLen)) :
    t.byteAt .rxbuf a = s.byteAt .rxbuf a := by
  obtain ⟨u, hexec, -, -, hframe⟩ := rxbAppendsAndMarksOrArms s b
  obtain rfl : u = t := exec_unique hexec h
  exact hframe .rxbuf a fun hstored => ha hstored.2

/-- The column of `PKT` with `VALIDATE` (10_state.md R55). -/
theorem exec_pkt_listening_frame {s t : State} (hl : s.linkState = .listening)
    (h : exec .pkt s = .next t) : t = { s with
      wake := t.wake, linkState := t.linkState, linkErr := t.linkErr, txLen := t.txLen,
      txActive := t.txActive, txbuf := t.txbuf, rfrxLen := t.rfrxLen, rfrx := t.rfrx,
      responses := t.responses, freeIdx := t.freeIdx, outputs := t.outputs } := by
  obtain ⟨r, u, hv, rfl⟩ := (exec_pkt_listening hl).1 h
  rw [validate_frame hv]

/-- The bytes `PKT` with `VALIDATE` stores. -/
theorem exec_pkt_storesOnly {s t : State} (hl : s.linkState = .listening)
    (h : exec .pkt s = .next t) :
    (∀ a, (∀ n, s.readsPacket n → n ≤ a) → t.byteAt .rfrx a = s.byteAt .rfrx a) ∧
      ∀ a, a < s.txLen ∨ t.txLen ≤ a → t.byteAt .txbuf a = s.byteAt .txbuf a := by
  obtain ⟨r, u, hv, rfl⟩ := (exec_pkt_listening hl).1 h
  exact validate_storesOnly (t := u) hv

/-- Settles O50: column by column. -/
theorem operationsWriteOnlyTheirColumns : Obligations.OperationsWriteOnlyTheirColumns := by
  unfold Obligations.OperationsWriteOnlyTheirColumns
  refine ⟨fun b s t h => ⟨?_, fun a ha => exec_rxb_storesOnly h ha⟩, fun s t h => ?_,
    fun s t h => ?_, fun s t hl h => ?_,
    fun s t hl h => ⟨exec_pkt_listening_frame hl h, exec_pkt_storesOnly hl h⟩, fun s t hl h => ?_,
    fun s t hp h => ?_, fun s t hp h => ?_, fun s t hp h => ?_,
    fun s t hp h => ⟨exec_post_frame hp h, exec_post_storesOnly hp h⟩⟩
  · rw [exec_rxb_frame h]
  · rw [exec_tmr_frame h]
  · rw [exec_txd_frame h]
  · rw [← exec_unique (exec_pkt_transmitting hl) h]
  · rw [← exec_unique (exec_pkt_idle hl) h]
  · rw [← exec_unique (exec_top hp) h]
    exact stepTop_frame s
  · rw [← exec_unique (exec_poll hp) h]
    exact stepPoll_frame s
  · rw [← exec_unique (exec_wait hp) h]
    exact stepWait_frame s

/-! ## Quiescence -/

/-- Settles O52: with nothing delivered `STEP` runs, and sleeps without the wake latch. -/
theorem quiescentBlockStaysAsItIs : Obligations.QuiescentBlockStaysAsItIs := by
  unfold Obligations.QuiescentBlockStaysAsItIs
  rintro s hcfg ⟨hp, hwake, hin, -⟩
  rw [step_of_no_input hcfg hin, exec_wait hp, stepWait_eq, if_neg (by rw [hwake]; decide)]

end Sys2Proof.Machine
end

section
/-! PROOFS. The drainer and the main loop commute (10_state.md section 7, 20_memory.md section 5):
a `STEP` reads and writes nothing of the drainer's registers, and a `TXD` nothing else. -/

namespace Sys2Proof.Machine

/-- The registers that `TXD` writes, and the history, put at other values. -/
def State.withTx (s : State) (n rd : Nat) (act : Bool) (o : List PortWord) : State :=
  { s with txLen := n, txRd := rd, txActive := act, outputs := o }

theorem emittedBetween_silent {s t : State} (h : t.outputs = s.outputs) :
    emittedBetween s t = [] :=
  emittedBetween_of_append (by rw [h, List.append_nil])

/-! ## `STEP` over other values of the drainer's registers -/

section
variable {s t : State} {n rd : Nat} {act : Bool} {o : List PortWord}

theorem dropResponse_withTx :
    dropResponse (s.withTx n rd act o) = (dropResponse s).withTx n rd act o := by
  unfold dropResponse State.withTx
  simp only
  split <;> rfl

theorem stepTop_withTx : stepTop (s.withTx n rd act o) =
    (stepTop s).withTx n rd act (o ++ emittedBetween s (stepTop s)) := by
  by_cases hl : s.linkState = .idle
  · rw [stepTop_idle hl, stepTop_idle (s := s.withTx n rd act o) hl,
      emittedBetween_of_append (List.append_assoc _ _ _), ← List.append_assoc]
    rfl
  · have hsilent : emittedBetween s (stepTop s) = [] :=
      emittedBetween_silent (by rw [stepTop_not_idle hl])
    rw [hsilent, List.append_nil, stepTop_not_idle hl,
      stepTop_not_idle (s := s.withTx n rd act o) hl]
    rfl

theorem exec_poll_withTx (hp : s.seq = .poll) (h : exec .step s = .next t) :
    exec .step (s.withTx n rd act o) =
      .next (t.withTx n rd act (o ++ emittedBetween s t)) := by
  by_cases hst : (nextResponse s).extractLsb' 4 3 = 0#3
  · obtain rfl := exec_unique (pollAnsweredIdleStartsListening s hp hst) h
    rw [pollAnsweredIdleStartsListening (s.withTx n rd act o) hp hst,
      emittedBetween_of_append rfl, dropResponse_withTx]
    rfl
  · obtain rfl := exec_unique (exec_poll_not_idle hp hst) h
    rw [exec_poll_not_idle (s := s.withTx n rd act o) hp hst, dropResponse_withTx]
    by_cases hagain : s.pollK + 1 < s.cfg.pollCap
    · rw [if_pos hagain, if_pos (by exact hagain), emittedBetween_of_append rfl]
      rfl
    · rw [if_neg hagain, if_neg (by exact hagain), emittedBetween_of_append rfl]
      rfl

theorem stepWait_withTx : stepWait (s.withTx n rd act o) =
    (stepWait s).withTx n rd act (o ++ emittedBetween s (stepWait s)) := by
  have hsilent : emittedBetween s (stepWait s) = [] :=
    emittedBetween_silent (by rw [stepWait_frame])
  rw [hsilent, List.append_nil, stepWait_eq, stepWait_eq]
  by_cases hw : s.wake = true
  · rw [if_pos hw, if_pos (by exact hw)]
    rfl
  · rw [if_neg hw, if_neg (by exact hw)]

/-- Steps 4 to 6 of `DISPATCH` leave the same bytes: each byte they leave is a byte of the receive
buffer or an old one, and buffers in canonical form that read alike are equal. -/
theorem sendFrame_withTx {u v : State} {flen : Nat} (hinv : s.Inv)
    (hu : sendFrame (dispatchReady s) flen = .ok u)
    (hv : sendFrame (dispatchReady (s.withTx n rd act o)) flen = .ok v) :
    v = u.withTx n rd act (o ++ emittedBetween s u) := by
  obtain ⟨frame, hlen, hheld, equ, hradio, hradioFrame, hmoved, hframe, hwf, -⟩ :=
    sendFrame_eq_ok hu
  obtain ⟨frame', hlen', hheld', eqv, hradio', hradioFrame', hmoved', hframe', hwf', -⟩ :=
    sendFrame_eq_ok hv
  obtain rfl : frame' = frame := holds_unique hheld' hheld (hlen'.trans hlen.symm)
  have hrxbuf : v.rxbuf = u.rxbuf := by
    refine wf_ext (hwf' .rxbuf (hinv.memWf .rxbuf)) (hwf .rxbuf (hinv.memWf .rxbuf)) fun a => ?_
    by_cases ha : a < s.rxLen - flen
    · exact (hmoved' a ha).trans (hmoved a ha).symm
    · exact (hframe' a (Nat.le_of_not_lt ha)).trans (hframe a (Nat.le_of_not_lt ha)).symm
  have hrftx : v.rftx = u.rftx := by
    refine wf_ext (hwf' .rftx (hinv.memWf .rftx)) (hwf .rftx (hinv.memWf .rftx)) fun a => ?_
    by_cases ha : a < (BitVec.ofNat 8 flen :: frame').length
    · have hbyte := (hradio' a ha).trans (hradio a ha).symm
      rwa [Nat.zero_add] at hbyte
    · rw [List.length_cons, hlen] at ha
      exact (hradioFrame' a (by omega)).trans (hradioFrame a (by omega)).symm
  have hout := congrArg State.outputs equ
  simp only [dispatchReady, emit_outputs, List.append_assoc] at hout
  rw [eqv, hrxbuf, hrftx, emittedBetween_of_append hout, equ]
  simp only [dispatchReady, emit_outputs, State.withTx, List.append_assoc]
  rfl

theorem dispatchInvalid_withTx (info : Byte) :
    dispatchInvalid (dispatchReady (s.withTx n rd act o)) info =
      (dispatchInvalid (dispatchReady s) info).withTx n rd act
        (o ++ emittedBetween s (dispatchInvalid (dispatchReady s) info)) := by
  rw [dispatchInvalid_dispatchReady, dispatchInvalid_dispatchReady, emittedBetween_of_append rfl]
  rfl

theorem dispatch_withTx {r : DispatchResult} (hinv : s.Inv) (h : dispatch s = .ok (r, t)) :
    dispatch (s.withTx n rd act o) =
      .ok (r, t.withTx n rd act (o ++ emittedBetween s t)) := by
  obtain ⟨hm, rfl, rfl⟩ | ⟨hm, rfl, info, rfl, hreason⟩ | ⟨hm, flen, hf, h0, hle, rfl, hs⟩ :=
    dispatch_eq_ok h
  · rw [emittedBetween_silent rfl, List.append_nil]
    exact dispatchIsEmptyExactlyWithoutMarker.1 _ hm
  · obtain ⟨hnoDelim, hzero, hguard⟩ :=
      dispatch_rejects (s := s.withTx n rd act o) hinv.rxLenLe hinv.rxWritten hm
    rw [← dispatchInvalid_withTx]
    obtain ⟨hto, hno, rfl⟩ | ⟨hf, rfl⟩ | ⟨flen, hf, hlong, h0, rfl⟩ := hreason
    · exact hnoDelim hto hno
    · exact hzero hf
    · exact hguard flen hf hlong h0
  · obtain ⟨v, hd, hv⟩ :=
      dispatch_sends (s := s.withTx n rd act o) hinv.rxLenLe hinv.rxWritten hm hf h0 hle
    rw [hd, sendFrame_withTx hinv hs hv]

theorem exec_post_withTx (hinv : s.Inv) (hp : s.seq = .post) (h : exec .step s = .next t) :
    exec .step (s.withTx n rd act o) =
      .next (t.withTx n rd act (o ++ emittedBetween s t)) := by
  refine (exec_post_eq_next (s := s.withTx n rd act o) hp).2 ?_
  obtain ⟨hnot, ht⟩ | ⟨hl, hm, r, u, hd, rfl⟩ := (exec_post_eq_next hp).1 h
  · have hsilent : emittedBetween s t = [] := emittedBetween_silent (by rw [ht])
    refine .inl ⟨hnot, ?_⟩
    rw [hsilent, List.append_nil, ht]
    rfl
  · exact .inr ⟨hl, hm, r, _, dispatch_withTx hinv hd, rfl⟩

/-- A `STEP` does the same and emits the same, whatever the drainer's registers. -/
theorem exec_step_withTx (hinv : s.Inv) (h : exec .step s = .next t) :
    exec .step (s.withTx n rd act o) =
      .next (t.withTx n rd act (o ++ emittedBetween s t)) := by
  cases hp : s.seq with
  | top =>
    obtain rfl := exec_unique (exec_top hp) h
    rw [exec_top (s := s.withTx n rd act o) hp, stepTop_withTx]
  | poll => exact exec_poll_withTx hp h
  | wait =>
    obtain rfl := exec_unique (exec_wait hp) h
    rw [exec_wait (s := s.withTx n rd act o) hp, stepWait_withTx]
  | post => exact exec_post_withTx hinv hp h

end

/-! ## `TXD` over another state with the same queue -/

/-- The two states hold the same queue and the same parameters. -/
structure SameQueue (s c : State) : Prop where
  len : c.txLen = s.txLen
  rd : c.txRd = s.txRd
  active : c.txActive = s.txActive
  buf : c.txbuf = s.txbuf
  cfg : c.cfg = s.cfg

/-- The drainer's registers and buffer are outside every column of `STEP` (10_state.md R55). -/
theorem exec_step_sameQueue {s t : State} (h : exec .step s = .next t) : SameQueue s t := by
  cases hp : s.seq with
  | top =>
    rw [← exec_unique (exec_top hp) h, stepTop_frame]
    exact ⟨rfl, rfl, rfl, rfl, rfl⟩
  | poll =>
    rw [← exec_unique (exec_poll hp) h, stepPoll_frame]
    exact ⟨rfl, rfl, rfl, rfl, rfl⟩
  | wait =>
    rw [← exec_unique (exec_wait hp) h, stepWait_frame]
    exact ⟨rfl, rfl, rfl, rfl, rfl⟩
  | post =>
    rw [exec_post_frame hp h]
    exact ⟨rfl, rfl, rfl, rfl, rfl⟩

theorem SameQueue.memRead_eq {s c : State} (h : SameQueue s c) (i : Nat) :
    memRead c .txbuf i = memRead s .txbuf i := by
  have hbyte : c.byteAt .txbuf i = s.byteAt .txbuf i := byteAt_eq_of_mem_eq (b := .txbuf) h.buf i
  rw [memRead, memRead, h.cfg, hbyte]

/-- A `TXD` does the same and emits the same in every state with the same queue. -/
theorem exec_txd_of_sameQueue {s a c : State} (hq : SameQueue s c) (h : exec .txd s = .next a) :
    exec .txd c =
      .next (c.withTx a.txLen a.txRd a.txActive (c.outputs ++ emittedBetween s a)) := by
  refine exec_txd_eq_next.2 ?_
  rw [hq.active, hq.rd, hq.len]
  obtain ⟨hact, rfl⟩ | ⟨hact, hend, ha⟩ | ⟨hact, hend, b, hread, rfl⟩ := exec_txd_eq_next.1 h
  · refine .inl ⟨hact, ?_⟩
    rw [emittedBetween_silent rfl, List.append_nil, ← hq.active, ← hq.rd, ← hq.len]
    rfl
  · have hsilent : emittedBetween s a = [] := emittedBetween_silent (by rw [ha])
    refine .inr (.inl ⟨hact, hend, ?_⟩)
    rw [hsilent, List.append_nil, ha]
    rfl
  · refine .inr (.inr ⟨hact, hend, b, (hq.memRead_eq _).trans hread, ?_⟩)
    rw [emittedBetween_of_append rfl, State.withTx, ← hq.active, ← hq.len]

/-- Settles O53: `TXD` before the `STEP` changes the drainer's registers under it, and the `STEP`
before the `TXD` leaves the queue. -/
theorem txdAndStepCommute : Obligations.TxdAndStepCommute := by
  unfold Obligations.TxdAndStepCommute
  intro s a b hinv htxd hstep
  obtain ⟨c, hc⟩ := exec_step_answers hinv
  have ha : a = s.withTx a.txLen a.txRd a.txActive a.outputs := exec_txd_frame htxd
  have hb : c.withTx a.txLen a.txRd a.txActive (a.outputs ++ emittedBetween s c) = b :=
    exec_unique (exec_step_withTx hinv hc) (ha ▸ hstep)
  refine ⟨c, _, hc, exec_txd_of_sameQueue (exec_step_sameQueue hc) htxd, ?_,
    emittedBetween_of_append rfl, ?_⟩
  · rw [← hb]
    rfl
  · rw [← hb]
    exact (emittedBetween_of_append rfl).symm

end Sys2Proof.Machine
end
